-- ==== Sys2Proof/Word.lean ====
section
/-!
DEFINITION. The word types of the CC256 capability codec core (spec/00_scope.md R8, R10).
Bit 0 is the least significant bit of every value (R10).
-/

namespace Sys2Proof

/-- One byte of the 32-byte wire image (spec/20_memory.md R47). -/
abbrev Byte := BitVec 8

/-- One 64-bit word of the wire image (R8 `WIRE_WORDS`), and the width of base, cursor and `fval`. -/
abbrev Word := BitVec 64

/-- The 256-bit wire image (R8 `WIRE_BITS`). -/
abbrev Image := BitVec 256

/-- The 8-bit command word (spec/30_encoding.md R65). -/
abbrev Command := BitVec 8

/-- The 5-bit status output (spec/60_exceptions.md R121). -/
abbrev Status := BitVec 5

end Sys2Proof
end

