-- ==== Sys2Proof/Syntax.lean ====
section
/-!
DEFINITION. The five commands of the block, one constructor per row of spec/opcode_table.json
(spec/30_encoding.md R66, R69).
-/

namespace Sys2Proof

/-- A command. `fsel` is the field selector `cmd[6:3]`, an unsigned 4-bit index into the field layout ROM (R72); every other
operand arrives on a port (R71). -/
inductive Instr where
  /-- DECODE: wire image and tag to record (spec/41_codec.md R90). -/
  | decode
  /-- ENCODE: record to wire image and tag (spec/41_codec.md R102). -/
  | encode
  /-- FEXTRACT: extract a field from a 64-bit word (spec/40_layout.md R85). -/
  | fextract (fsel : BitVec 4)
  /-- FINSERT: place a value into a field position (spec/40_layout.md R86). -/
  | finsert (fsel : BitVec 4)
  /-- VALIDATE: check a record against its invariants and widths (spec/42_validator.md R113). -/
  | validate
deriving DecidableEq, Repr

end Sys2Proof
end

