-- ==== Sys2Proof/WellFormed.lean ====
section
/-!
DEFINITION. Which terms of `Instr` are commands of the block: the selector of a field operation is one of the ten ROM selectors
(spec/30_encoding.md R67, R70).
-/

namespace Sys2Proof

/-- Selectors `0000` to `1001` name ROM entries, `1010` to `1111` are reserved (R67). -/
def selectorLegal (fsel : BitVec 4) : Bool := decide (fsel.toNat < 10)

/-- The well-formed commands: the 23 legal ones of R69. -/
def Instr.wf : Instr → Bool
  | .decode => true
  | .encode => true
  | .fextract fsel => selectorLegal fsel
  | .finsert fsel => selectorLegal fsel
  | .validate => true

end Sys2Proof
end

