-- ==== Sys2Proof/Decode.lean ====
section
/-!
DEFINITION. The command word: its fields, the decoder (total, rejecting by name) and the encoder
(spec/30_encoding.md R65 to R73). Both are written from R65, R66 and R67; R69's match and mask table is stated of them in
Sys2Proof/Certificates/Slice0/Obligations.lean.
-/

namespace Sys2Proof

/-- Why a command word is illegal: the four grounds of R70. -/
inductive DecodeError where
  /-- `cmd[7] = 1` (R68). -/
  | reservedBitSet
  /-- `op` is `101`, `110` or `111` (R66). -/
  | reservedOperation
  /-- `op` is `000`, `001` or `100` and `fsel` is not 0 (R65). -/
  | selectorNotZero
  /-- `op` is `010` or `011` and `fsel` is 10 or more (R67). -/
  | reservedSelector
deriving DecidableEq, Repr

/-- `op = cmd[2:0]` (R65). -/
def commandOp (c : Command) : BitVec 3 := c.extractLsb' 0 3

/-- `fsel = cmd[6:3]` (R65). -/
def commandSelector (c : Command) : BitVec 4 := c.extractLsb' 3 4

/-- `cmd[7]`, reserved, must be 0 (R68). -/
def commandReserved (c : Command) : BitVec 1 := c.extractLsb' 7 1

/-- An operation without a selector: `fsel` must be 0 (R65, R70). -/
def plainCommand (fsel : BitVec 4) (i : Instr) : Except DecodeError Instr :=
  if fsel = 0#4 then .ok i else .error .selectorNotZero

/-- A field operation: `fsel` must be a ROM selector (R67, R70). -/
def fieldCommand (fsel : BitVec 4) (i : Instr) : Except DecodeError Instr :=
  if selectorLegal fsel then .ok i else .error .reservedSelector

/-- The decoder of the command word (R65, R66, R70). Where several grounds hold, the first in R70's order is named. -/
def decodeCommand (c : Command) : Except DecodeError Instr :=
  if commandReserved c = 1#1 then .error .reservedBitSet
  else
    match (commandOp c).toNat with
    | 0 => plainCommand (commandSelector c) .decode
    | 1 => plainCommand (commandSelector c) .encode
    | 2 => fieldCommand (commandSelector c) (.fextract (commandSelector c))
    | 3 => fieldCommand (commandSelector c) (.finsert (commandSelector c))
    | 4 => plainCommand (commandSelector c) .validate
    | _ => .error .reservedOperation

/-- The operation code of a command (R66). -/
def Instr.op : Instr → BitVec 3
  | .decode => 0b000#3
  | .encode => 0b001#3
  | .fextract _ => 0b010#3
  | .finsert _ => 0b011#3
  | .validate => 0b100#3

/-- The selector field of a command; 0 where the operation has none (R65). -/
def Instr.selector : Instr → BitVec 4
  | .decode => 0#4
  | .encode => 0#4
  | .fextract fsel => fsel
  | .finsert fsel => fsel
  | .validate => 0#4

/-- The command word of a command: `cmd[7] = 0`, `cmd[6:3] = fsel`, `cmd[2:0] = op` (R65). -/
def encode (i : Instr) : Command := 0#1 ++ i.selector ++ i.op

/-- The instruction the decoder reads from a row of spec/opcode_table.json with bits `w`: the table gives every row 8 bits, one
command word (R73), and every bit at `nbits` and above is 0. -/
def decodeTableWord (nbits w : Nat) : Option Instr :=
  (decodeCommand (BitVec.ofNat 8 (w % 2 ^ nbits))).toOption

end Sys2Proof
end

