-- ==== Sys2Proof/Machine/Ports.lean ====
section
/-!
DEFINITION. The ports of the block (spec/10_state.md R23 to R26). Every port carries exactly its width (R25). The record bundle is
called `record` here; the spec writes `rec`. A one-bit tag is a Bool: the spec's "boolean validity bit" (R26), `true` for 1.
-/

namespace Sys2Proof.Machine

/-- The Capability Record, the bundle of the `rec.*` ports (R26). -/
structure Record where
  base     : BitVec 64
  top      : BitVec 65
  cursor   : BitVec 64
  /-- Bits 11..0 hardware permissions, bits 14..12 the reserved permission bits (R23). -/
  perms    : BitVec 15
  uperms   : BitVec 16
  otype    : BitVec 24
  flags    : BitVec 1
  reserved : BitVec 8
  tag      : Bool
deriving DecidableEq, Repr, Inhabited

/-- The input ports (R23), sampled together (spec/00_scope.md R14). -/
structure Inputs where
  cmd    : Command
  wire   : Image
  tag    : Bool
  record : Record
  fval   : Word
deriving DecidableEq, Repr, Inhabited

/-- The output ports (R24), driven together. -/
structure Outputs where
  wire   : Image
  tag    : Bool
  record : Record
  fval   : Word
  status : Status
deriving DecidableEq, Repr, Inhabited

/-- The record with every field 0 (spec/30_encoding.md R74: "record fields not written are 0"). -/
def zeroRecord : Record :=
  { base := 0, top := 0, cursor := 0, perms := 0, uperms := 0, otype := 0, flags := 0, reserved := 0, tag := false }

/-- Every input port at 0. -/
def zeroInputs : Inputs :=
  { cmd := 0, wire := 0, tag := false, record := zeroRecord, fval := 0 }

/-- Every output port at 0. -/
def zeroOutputs : Outputs :=
  { wire := 0, tag := false, record := zeroRecord, fval := 0, status := 0 }

/-- The null record, the DECODE of the all-zero image with tag 0 (spec/41_codec.md R97). -/
def nullRecord : Record := { zeroRecord with top := 0xFFFFFFFFFFFFFFFF#65, otype := 0xFFFFFF#24 }

end Sys2Proof.Machine
end

