-- ==== Sys2Proof/Config.lean ====
section
/-!
DEFINITION. What an implementation of the block fixes (spec/00_scope.md R8) and the free values (R13 `UNSPEC`).
The other parameters of R8 have one admitted value and are the widths of Sys2Proof/Word.lean and Sys2Proof/Machine/Ports.lean;
`RSV_POLICY` has the one value `PASS_THROUGH_AND_FLAG`, which is how DECODE and ENCODE are written (spec/92_eei_decisions.md D8).
-/

namespace Sys2Proof

/-- `CAP_VARIANT` (R8): the capability width asked for; only 256 is admitted. -/
inductive CapVariant where
  | cap64
  | cap128
  | cap256
deriving DecidableEq, Repr

/-- `BYTE_ORDER` (R8, spec/20_memory.md R47): the byte order within a word of the image in host memory. -/
inductive ByteOrder where
  | le
  | be
deriving DecidableEq, Repr

/-- The open parameters of R8. -/
structure Params where
  capVariant : CapVariant
  byteOrder  : ByteOrder
  /-- Cycles from presenting inputs to valid outputs (spec/70_reset_and_hazards.md R145). -/
  latency    : Nat
deriving DecidableEq, Repr

/-- The values R8 gives: `CAP_VARIANT` 256, `BYTE_ORDER` LE by default, `LATENCY` 0 by default. `Machine.step` runs with these;
`Machine.evaluateCycle` takes any (log 7, log 9, log 10). -/
def Config.params : Params := { capVariant := .cap256, byteOrder := .le, latency := 0 }

/-- The free draw behind every `UNSPEC` output of an evaluation whose inputs were stable (R13, R24): one value for each output
port, given the number of the draw and the inputs of the evaluation. It has no body, so nothing constrains it (log 2). -/
opaque Config.unspec : Nat → Machine.Inputs → Machine.Outputs

/-- The free draw of every output port when an input changed within the LATENCY window (spec/70_reset_and_hazards.md R148), given
the number of the draw and the inputs of the cycles seen, newest first (log 8). -/
opaque Config.unspecUnstable : Nat → List Machine.Inputs → Machine.Outputs

end Sys2Proof
end

