-- ==== Sys2Proof/Machine/Layout.lean ====
section
/-!
DEFINITION. The field layout generator (spec/40_layout.md R76 to R84) and the ROM it produces for the 256-bit variant
(spec/10_state.md R34 to R39). The ROM's contents are computed from the declared bit ranges, not copied; that they are the numbers
of R36's table is stated in Sys2Proof/Certificates/Slice0/Obligations.lean.
-/

namespace Sys2Proof.Machine

/-- The names of the ten ROM entries (R36). -/
inductive FieldName where
  | flags
  | perms
  | resperms
  | uperms
  | otype
  | reserved
  | cursor
  | base
  | length
  | permsAll
deriving DecidableEq, Repr

/-- A declared triple "(name, end-bit, start-bit)", both ends inclusive (R76). -/
structure Declared where
  name  : FieldName
  last  : Nat
  start : Nat
deriving DecidableEq, Repr

/-- A field's place after normalization: its 64-bit word and its inclusive bit range within it (R77). -/
structure Placement where
  word  : Nat
  start : Nat
  last  : Nat
deriving DecidableEq, Repr

/-- Normalization of a range declared in the 256-bit frame: `word = start_f >> 6`, and the base offset `64*word` is subtracted
from both ends (R77). -/
def normalizeField (d : Declared) : Placement :=
  let word := d.start >>> 6
  { word := word, start := d.start - 64 * word, last := d.last - 64 * word }

/-- What the generator admits: `0 <= start_f <= end_f <= 255` (R77), and both ends in one 64-bit word (R78). -/
def frameAdmitted (d : Declared) : Bool :=
  decide (d.start ≤ d.last) && decide (d.last ≤ 255) && decide (d.last >>> 6 = d.start >>> 6)

/-- A placement the ROM can hold: a word 0..3 and `0 <= start <= last <= 63` (R78). -/
def placementAdmitted (p : Placement) : Bool :=
  decide (p.word < 4) && decide (p.start ≤ p.last) && decide (p.last ≤ 63)

/-- A field declared in the 256-bit frame; none where it crosses a word boundary (R77, R78). -/
def placeInFrame (d : Declared) : Option Placement :=
  if frameAdmitted d then some (normalizeField d) else none

/-- A field declared directly within a word: the word is given and the base offset is 0 (R77). -/
def placeInWord (word : Nat) (d : Declared) : Option Placement :=
  let p : Placement := { word := word, start := d.start, last := d.last }
  if placementAdmitted p then some p else none

/-- The offset generator variant: a field declared relative to another field `g` has `g`'s start added to both ends (R82), and
R78 applies to the result. R82 gives the new field no word: that it lies in the word of `g` is the model's choice (DESIGN CHOICE,
log 17). -/
def placeRelative (g : Placement) (d : Declared) : Option Placement :=
  let p : Placement := { word := g.word, start := d.start + g.start, last := d.last + g.start }
  if placementAdmitted p then some p else none

/-- One entry of the field layout ROM, with the widths of R35. -/
structure RomEntry where
  word          : BitVec 2
  start         : BitVec 6
  last          : BitVec 6
  size          : BitVec 7
  maskUnshifted : BitVec 64
  mask64        : BitVec 64
  maxValue      : BitVec 64
deriving DecidableEq, Repr

/-- `size = last - start + 1` (R79). -/
def placementSize (p : Placement) : Nat := p.last - p.start + 1

/-- `mask_unshifted = (1 << size) - 1`, over unbounded integers, so that size 64 gives `2^64 - 1` (R79, D19). -/
def placementMask (p : Placement) : Nat := (1 <<< placementSize p) - 1

/-- The derived values of one field (R79), narrowed to the widths of R35. -/
def romEntry (p : Placement) : RomEntry :=
  { word := BitVec.ofNat 2 p.word
    start := BitVec.ofNat 6 p.start
    last := BitVec.ofNat 6 p.last
    size := BitVec.ofNat 7 (placementSize p)
    maskUnshifted := BitVec.ofNat 64 (placementMask p)
    mask64 := BitVec.ofNat 64 (placementMask p <<< p.start)
    maxValue := BitVec.ofNat 64 (placementMask p) }

/-- The field layout ROM: one entry for each of the selectors 0 to 9, in R36's order. -/
structure Rom where
  flags    : RomEntry
  perms    : RomEntry
  resperms : RomEntry
  uperms   : RomEntry
  otype    : RomEntry
  reserved : RomEntry
  cursor   : RomEntry
  base     : RomEntry
  length   : RomEntry
  permsAll : RomEntry
deriving DecidableEq, Repr

/-- The entry a field selector names; selectors 10 to 15 are reserved and name none (R36, R67). -/
def romSelect (rom : Rom) (fsel : BitVec 4) : Option RomEntry :=
  match fsel.toNat with
  | 0 => some rom.flags
  | 1 => some rom.perms
  | 2 => some rom.resperms
  | 3 => some rom.uperms
  | 4 => some rom.otype
  | 5 => some rom.reserved
  | 6 => some rom.cursor
  | 7 => some rom.base
  | 8 => some rom.length
  | 9 => some rom.permsAll
  | _ => none

/-- The entries of selectors 0 to 8, which partition the wire bits; selector 9 is an overlapping view (R38). -/
def romPartition (rom : Rom) : List RomEntry :=
  [rom.flags, rom.perms, rom.resperms, rom.uperms, rom.otype, rom.reserved, rom.cursor, rom.base, rom.length]

/-- The sum of the field sizes (R83). -/
def totalWidth (es : List RomEntry) : Nat := (es.map fun e => e.size.toNat).sum

/-- Two entries share no wire bit (R39). -/
def entriesDisjoint (a b : RomEntry) : Bool := a.word != b.word || a.mask64 &&& b.mask64 == 0#64

/-- The entries of a list are pairwise disjoint (R39). -/
def pairwiseDisjoint : List RomEntry → Bool
  | [] => true
  | e :: es => es.all (entriesDisjoint e) && pairwiseDisjoint es

/-- The bits of word `k` that the entries cover. -/
def coveredBits (es : List RomEntry) (k : BitVec 2) : BitVec 64 :=
  es.foldr (fun e acc => if e.word = k then e.mask64 ||| acc else acc) 0#64

/-- The entries cover every bit of the four words (R39). -/
def coversImage (es : List RomEntry) : Bool :=
  coveredBits es 0#2 == BitVec.allOnes 64 && coveredBits es 1#2 == BitVec.allOnes 64 &&
    coveredBits es 2#2 == BitVec.allOnes 64 && coveredBits es 3#2 == BitVec.allOnes 64

/-- The build-time checks of a layout: the total-width check, and the partition property the spec adds (R83, D20). -/
def layoutChecks (rom : Rom) : Bool :=
  totalWidth (romPartition rom) == 256 && pairwiseDisjoint (romPartition rom) && coversImage (romPartition rom)

/-- The ROM of ten placements in selector order, unchecked. -/
def romOf (fl pe rp up ot rs cu ba le pa : Placement) : Rom :=
  { flags := romEntry fl, perms := romEntry pe, resperms := romEntry rp, uperms := romEntry up, otype := romEntry ot
    reserved := romEntry rs, cursor := romEntry cu, base := romEntry ba, length := romEntry le, permsAll := romEntry pa }

/-- Building the block from ten fields declared in the 256-bit frame, in selector order: none where a field crosses a word
(R78) or a check of R83 fails, so that the block is not built. -/
def buildRom : List Declared → Option Rom
  | [fl, pe, rp, up, ot, rs, cu, ba, le, pa] =>
    let rom := romOf (normalizeField fl) (normalizeField pe) (normalizeField rp) (normalizeField up) (normalizeField ot) (normalizeField rs)
      (normalizeField cu) (normalizeField ba) (normalizeField le) (normalizeField pa)
    if [fl, pe, rp, up, ot, rs, cu, ba, le, pa].all frameAdmitted && layoutChecks rom then some rom else none
  | _ => none

/-- The declared triples of the 256-bit variant, in selector order and in the 256-bit frame: the positions of
spec/30_encoding.md R58 and R59, word k at frame bits 64k and up (log 12). -/
def declared256 : List Declared :=
  [ { name := .flags, last := 0, start := 0 },
    { name := .perms, last := 12, start := 1 },
    { name := .resperms, last := 15, start := 13 },
    { name := .uperms, last := 31, start := 16 },
    { name := .otype, last := 55, start := 32 },
    { name := .reserved, last := 63, start := 56 },
    { name := .cursor, last := 127, start := 64 },
    { name := .base, last := 191, start := 128 },
    { name := .length, last := 255, start := 192 },
    { name := .permsAll, last := 15, start := 1 } ]

/-- The placement of one field of the 256-bit variant. -/
def placement256 (n : FieldName) : Placement :=
  match declared256.find? fun d => d.name == n with
  | some d => normalizeField d
  | none => { word := 0, start := 0, last := 0 }

/-- The ROM of the 256-bit variant (R36). -/
def rom256 : Rom :=
  romOf (placement256 .flags) (placement256 .perms) (placement256 .resperms) (placement256 .uperms) (placement256 .otype)
    (placement256 .reserved) (placement256 .cursor) (placement256 .base) (placement256 .length) (placement256 .permsAll)

end Sys2Proof.Machine
end

