-- ==== Sys2Proof/Machine/State.lean ====
section
/-!
DEFINITION. The state of the machine, the names of its faults and refusals, and the state after reset
(spec/10_state.md; INVENTORY.md, heading State). The block keeps nothing between evaluations (R20): State holds the ports, the
constant ROM, the host's inputs of the earlier cycles of a LATENCY window, and the number of the next free draw.
-/

namespace Sys2Proof.Machine

/-- The faults an evaluation reports on its status output (spec/60_exceptions.md R133). No step stops with one: the block always
completes the evaluation (R140) and the machine goes on, so each is a name that Sys2Proof/Safety.lean gives to a state. -/
inductive Fault where
  /-- Status ILL: the command was illegal and no operation was performed (R122, R123). Named by `statusFaults`; raised by no step.
  Safe: claims take its absence as a premise. -/
  | illegalCommand
  /-- Status RSV in DECODE or ENCODE: tag 1 with nonzero reserved bits (R124). Named by `statusFaults`; raised by no step. Safe:
  the data outputs are the spec's pass-through values. -/
  | reservedBits
  /-- Status INV in ENCODE: `top < base`, the wire output is UNSPEC (R125). Named by `statusFaults`; raised by no step. Safe: the
  wire output is a free draw. -/
  | invertedBounds
deriving DecidableEq, Repr

/-- Why a step has no meaning. -/
inductive Refusal where
  /-- An instruction whose arm of `exec` gives no meaning yet; no arm does. Safe. -/
  | notModelled (mnemonic : String)
  /-- A request for a capability width other than 256, raised by `evaluateCycle` (spec/00_scope.md R5, R8; D21). Safe: the model
  answers nothing where the spec gives no layout. -/
  | unsupportedVariant (variant : CapVariant)
deriving DecidableEq, Repr

/-- The state of the machine. -/
structure State where
  /-- The input ports in the present cycle (R23). -/
  inp   : Inputs
  /-- The output ports, as the last evaluation drove them (R24). -/
  out   : Outputs
  /-- The field layout ROM (R34, R36); no operation writes it (R37). -/
  rom   : Rom
  /-- The input ports in the earlier cycles of the LATENCY window, newest first (spec/70_reset_and_hazards.md R148). -/
  past  : List Inputs
  /-- The model's own counter: the number of the next free draw (spec/00_scope.md R13; log 2). -/
  draws : Nat
deriving DecidableEq, Repr

/-- The machine right after reset (R43): the ROM at R36's values. The input ports have no reset value; the model names 0 (DESIGN
CHOICE, log 3), no earlier cycle (log 7) and draw number 0 (log 2). The outputs are "at all times the function of the current inputs"
(spec/70_reset_and_hazards.md R141), which for these inputs is DECODE's null record with status 0; the ports DECODE does not drive are
named 0 (DESIGN CHOICE, log 4). -/
def State.reset : State :=
  { inp := zeroInputs, out := { zeroOutputs with record := nullRecord }, rom := rom256, past := [], draws := 0 }

end Sys2Proof.Machine
end

