-- ==== Sys2Proof/Machine/Operands.lean ====
section
/-!
DEFINITION. The constants, the words and slices of the wire image, the permission views, the stored forms, and which ports a command
reads and drives (spec/00_scope.md R9; spec/20_memory.md R46; spec/30_encoding.md R57 to R63, R71).
-/

namespace Sys2Proof.Machine

/-- `UNSEALED_SENTINEL = 0xFF_FFFF` (R9). -/
def unsealedSentinel : BitVec 24 := 0xFFFFFF#24

/-- `SENTRY_OTYPE = 0xFF_FFFE` (R9). -/
def sentryOtype : BitVec 24 := 0xFFFFFE#24

/-- `OTYPE_RESERVED_LO = 0xFF_FFF0` (R9). -/
def otypeReservedLo : BitVec 24 := 0xFFFFF0#24

/-- `OTYPE_RESERVED_HI = 0xFF_FFFD` (R9). -/
def otypeReservedHi : BitVec 24 := 0xFFFFFD#24

/-- `ALL_ONES_64` (R9). -/
def allOnes64 : BitVec 64 := 0xFFFFFFFFFFFFFFFF#64

/-- `LEN_MAX = 2^64 - 1` (R9). -/
def lenMax : Nat := 2 ^ 64 - 1

/-- `TOP_MAX = 2^65 - 1` (R9). -/
def topMax : Nat := 2 ^ 65 - 1

/-- `PERM_MASK_TAGGED = 0xFFF` or `PERM_MASK_UNTAGGED = 0x7FFF`, selected by the tag alone (R62, spec/41_codec.md R92). -/
def permMask (tag : Bool) : BitVec 15 := if tag then 0xFFF#15 else 0x7FFF#15

/-- Word k of a wire image: `wire[64k+63:64k]` (spec/20_memory.md R46). -/
def imageWord (w : Image) (k : Nat) : Word := w.extractLsb' (64 * k) 64

/-- The wire image of four words, word 0 in bits 63..0 (spec/20_memory.md R46). -/
def imageOfWords (w0 w1 w2 w3 : Word) : Image := w3 ++ w2 ++ w1 ++ w0

/-- `word0[0]`, the flags (R58). -/
def wireFlags (w0 : Word) : BitVec 1 := w0.extractLsb' 0 1

/-- `(word0 >> 1) & mask` on the 15-bit port (R62; spec/41_codec.md R92). -/
def wirePerms (tag : Bool) (w0 : Word) : BitVec 15 := w0.extractLsb' 1 15 &&& permMask tag

/-- `word0[31:16]`, the user permissions (R58). -/
def wireUperms (w0 : Word) : BitVec 16 := w0.extractLsb' 16 16

/-- `word0[55:32]`, the stored object type (R58). -/
def wireOtype (w0 : Word) : BitVec 24 := w0.extractLsb' 32 24

/-- `word0[63:56]`, the reserved field (R58, R63). -/
def wireReserved (w0 : Word) : BitVec 8 := w0.extractLsb' 56 8

/-- The stored form of an object type and back, the same involution both ways (R60). -/
def otypeXor (v : BitVec 24) : BitVec 24 := v ^^^ unsealedSentinel

/-- The stored form of a length and back, the same involution both ways (R61). -/
def lengthXor (v : Word) : Word := v ^^^ allOnes64

/-- The classes of object types (spec/10_state.md R30). -/
inductive OtypeClass where
  | unsealed
  | sentry
  | reservedSentinel
  | sealed
deriving DecidableEq, Repr

/-- The class of an object type (spec/10_state.md R30). The codec never reads it. -/
def otypeClass (o : BitVec 24) : OtypeClass :=
  if o = unsealedSentinel then .unsealed
  else if o = sentryOtype then .sentry
  else if otypeReservedLo ≤ o ∧ o ≤ otypeReservedHi then .reservedSentinel
  else .sealed

/-- The inputs a command reads, every other port at 0: DECODE reads `wire` and `tag`, ENCODE and VALIDATE the record, the field
operations `fval`; an illegal command only `cmd` (R71; spec/60_exceptions.md R123). -/
def inputsRead (c : Except DecodeError Instr) (i : Inputs) : Inputs :=
  match c with
  | .ok .decode => { zeroInputs with cmd := i.cmd, wire := i.wire, tag := i.tag }
  | .ok .encode => { zeroInputs with cmd := i.cmd, record := i.record }
  | .ok (.fextract _) => { zeroInputs with cmd := i.cmd, fval := i.fval }
  | .ok (.finsert _) => { zeroInputs with cmd := i.cmd, fval := i.fval }
  | .ok .validate => { zeroInputs with cmd := i.cmd, record := i.record }
  | .error _ => { zeroInputs with cmd := i.cmd }

/-- The outputs a command drives, every other port at 0 (R71). -/
def outputsDriven (i : Instr) (o : Outputs) : Outputs :=
  match i with
  | .decode => { zeroOutputs with record := o.record, status := o.status }
  | .encode => { zeroOutputs with wire := o.wire, tag := o.tag, status := o.status }
  | .fextract _ => { zeroOutputs with fval := o.fval, status := o.status }
  | .finsert _ => { zeroOutputs with fval := o.fval, status := o.status }
  | .validate => { zeroOutputs with status := o.status }

end Sys2Proof.Machine
end

