-- ==== Sys2Proof/Machine/Flags.lean ====
section
/-!
DEFINITION. The status output: its bits, the condition behind each, and the status of each command
(spec/60_exceptions.md R121 to R128; spec/42_validator.md R114 to R118). It is not retained: every evaluation drives it afresh
(spec/10_state.md R40).
-/

namespace Sys2Proof.Machine

/-- ILL, bit 0, code `0x01` (R121). -/
def illBit : Status := 0x01#5

/-- RSV, bit 1, code `0x02` (R121). -/
def rsvBit : Status := 0x02#5

/-- INV, bit 2, code `0x04` (R121). -/
def invBit : Status := 0x04#5

/-- PDROP, bit 3, code `0x08` (R121). -/
def pdropBit : Status := 0x08#5

/-- SAT, bit 4, code `0x10` (R121). -/
def satBit : Status := 0x10#5

/-- A status value has a bit set. -/
def hasBit (st bit : Status) : Bool := st &&& bit != 0#5

/-- `raise Status(NAME)` under a condition (spec/00_scope.md R13). -/
def raiseIf (cond : Bool) (bit : Status) : Status := if cond then bit else 0#5

/-- The contract violation: tag 1 and a nonzero reserved field (R124; spec/10_state.md R28). -/
def reservedViolated (tag : Bool) (reserved : BitVec 8) : Bool := tag && reserved != 0#8

/-- Inverted bounds: `top < base` (R125; spec/10_state.md R27). -/
def boundsInverted (r : Record) : Bool := decide (r.top.toNat < r.base.toNat)

/-- A tagged record that holds reserved permission bits, `perms[14:12] != 0` (spec/42_validator.md R116). -/
def permsDropped (r : Record) : Bool := r.tag && r.perms.extractLsb' 12 3 != 0#3

/-- The clamp would change `top`: `top >= base` and `top - base > 2^64 - 1` (spec/42_validator.md R117). -/
def lengthSaturates (r : Record) : Bool := decide (r.base.toNat ≤ r.top.toNat) && decide (lenMax < r.top.toNat - r.base.toNat)

/-- The status of DECODE: RSV or 0 (spec/41_codec.md R101). -/
def decodeStatus (tag : Bool) (w0 : Word) : Status := raiseIf (reservedViolated tag (wireReserved w0)) rsvBit

/-- The status of ENCODE: RSV and INV, each by its own condition; saturation sets nothing (spec/41_codec.md R108, R109; R127). -/
def encodeStatus (r : Record) : Status :=
  raiseIf (reservedViolated r.tag r.reserved) rsvBit ||| raiseIf (boundsInverted r) invBit

/-- The status of VALIDATE: INV, RSV, PDROP and SAT, each by its own condition (spec/42_validator.md R113). -/
def validateStatus (r : Record) : Status :=
  raiseIf (boundsInverted r) invBit ||| raiseIf (reservedViolated r.tag r.reserved) rsvBit |||
    raiseIf (permsDropped r) pdropBit ||| raiseIf (lengthSaturates r) satBit

/-- The verdict of a VALIDATE status: *valid* when none of INV, RSV and PDROP is set (spec/42_validator.md R118). -/
def verdictValid (st : Status) : Bool := !hasBit st invBit && !hasBit st rsvBit && !hasBit st pdropBit

/-- The verdict of a VALIDATE status: *exactly representable* when it is 0 (spec/42_validator.md R118). -/
def verdictExact (st : Status) : Bool := st == 0#5

end Sys2Proof.Machine
end

