-- ==== Sys2Proof/Machine/Ops.lean ====
section
/-!
DEFINITION. The shared operations: driving the output ports, reporting an illegal command (this block's one command-level
exception; it has no trap entry and no return, spec/60_exceptions.md R129, R130), presenting inputs, the two bit-packer functions, the saturator, and the
data paths of DECODE and ENCODE.
-/

namespace Sys2Proof.Machine

/-- What every output port carries unless the operation drives it: `UNSPEC`, a free draw (spec/00_scope.md R13; log 2). -/
def undriven (s : State) : Outputs := Config.unspec s.draws s.inp

/-- Driving the output ports of an evaluation; the next evaluation draws anew. -/
def drive (s : State) (o : Outputs) : State := { s with out := o, draws := s.draws + 1 }

/-- The evaluation of an illegal command: status ILL exactly, every other output `UNSPEC` (spec/60_exceptions.md R123). -/
def reportIllegal (s : State) : State := drive s { undriven s with status := illBit }

/-- The evaluation whose inputs changed within the LATENCY window: every output `UNSPEC`, status too
(spec/70_reset_and_hazards.md R148). -/
def reportUnstable (s : State) : State := drive s (Config.unspecUnstable s.draws (s.inp :: s.past))

/-- The host presents new values on the input ports (spec/10_state.md R44). The outputs were valid "until the host changes an
input", and no output register holds them after that (spec/70_reset_and_hazards.md R141, R149): until the next evaluation every output
is a free draw (log 8). Every change of an input port goes through here. -/
def State.present (s : State) (i : Inputs) : State :=
  drive { s with inp := i } (Config.unspecUnstable s.draws (i :: s.inp :: s.past))

/-- `encode_field(value, f) = (value & max_value[f]) << start[f]` (spec/40_layout.md R80). -/
def encodeField (e : RomEntry) (v : Word) : Word := (v &&& e.maxValue) <<< e.start.toNat

/-- `extract_field(word, f) = (word >> start[f]) & mask_unshifted[f]` (spec/40_layout.md R81). -/
def extractField (e : RomEntry) (w : Word) : Word := (w >>> e.start.toNat) &&& e.maskUnshifted

/-- `top = base + length` in an accumulator that does not wrap (spec/41_codec.md R98). -/
def decodedTop (base length : Word) : BitVec 65 := BitVec.ofNat 65 (base.toNat + length.toNat)

/-- The saturator: `length = min(top - base, LEN_MAX)` for `top >= base` (spec/41_codec.md R105). -/
def saturatedLength (r : Record) : Word := BitVec.ofNat 64 (min (r.top.toNat - r.base.toNat) lenMax)

/-- The record DECODE drives (spec/41_codec.md R90). -/
def decodedRecord (wire : Image) (tag : Bool) : Record :=
  let w0 := imageWord wire 0
  let w1 := imageWord wire 1
  let w2 := imageWord wire 2
  let w3 := imageWord wire 3
  { base := w2
    top := decodedTop w2 (lengthXor w3)
    cursor := w1
    perms := wirePerms tag w0
    uperms := wireUperms w0
    otype := otypeXor (wireOtype w0)
    flags := wireFlags w0
    reserved := wireReserved w0
    tag := tag }

/-- Word 0 of the image ENCODE drives (spec/41_codec.md R102, R103, R104). -/
def encodedWord0 (rom : Rom) (r : Record) : Word :=
  encodeField rom.flags (r.flags.setWidth 64) ||| ((r.perms &&& permMask r.tag).setWidth 64 <<< 1) |||
    encodeField rom.uperms (r.uperms.setWidth 64) ||| encodeField rom.otype ((otypeXor r.otype).setWidth 64) |||
    encodeField rom.reserved (r.reserved.setWidth 64)

/-- The image ENCODE drives for a record with `top >= base` (spec/41_codec.md R102, R106, R107). -/
def encodedImage (rom : Rom) (r : Record) : Image :=
  imageOfWords (encodedWord0 rom r) r.cursor r.base (lengthXor (saturatedLength r))

end Sys2Proof.Machine
end

