-- ==== Sys2Proof/Machine/Codec.lean ====
section
/-!
DEFINITION. The capability codec: DECODE and ENCODE (spec/41_codec.md R90, R102).
-/

namespace Sys2Proof.Machine

/-- DECODE (R90): the record of the image under the caller's tag; RSV changes no data output (R101). Total (R90). -/
def execDecode (s : State) : Host.Outcome State Fault Refusal :=
  .next (drive s { undriven s with
    record := decodedRecord s.inp.wire s.inp.tag
    status := decodeStatus s.inp.tag (imageWord s.inp.wire 0) })

/-- ENCODE (R102): the image and tag of the record; with `top < base` the image is `UNSPEC` and everything else is as always
(R108). -/
def execEncode (s : State) : Host.Outcome State Fault Refusal :=
  .next (drive s { undriven s with
    wire := if boundsInverted s.inp.record then (undriven s).wire else encodedImage s.rom s.inp.record
    tag := s.inp.record.tag
    status := encodeStatus s.inp.record })

end Sys2Proof.Machine
end

