-- ==== Sys2Proof/Machine/Field.lean ====
section
/-!
DEFINITION. The bit-packer operations: FEXTRACT and FINSERT (spec/40_layout.md R85, R86). A selector that names no ROM entry makes
the command illegal (spec/30_encoding.md R70; log 13).
-/

namespace Sys2Proof.Machine

/-- FEXTRACT (R85): `out.fval <- extract_field(in.fval, f)`, status 0. -/
def execFextract (fsel : BitVec 4) (s : State) : Host.Outcome State Fault Refusal :=
  match romSelect s.rom fsel with
  | some e => .next (drive s { undriven s with fval := extractField e s.inp.fval, status := 0#5 })
  | none => .next (reportIllegal s)

/-- FINSERT (R86): `out.fval <- encode_field(in.fval, f)`, status 0; truncation is silent (spec/60_exceptions.md R128). -/
def execFinsert (fsel : BitVec 4) (s : State) : Host.Outcome State Fault Refusal :=
  match romSelect s.rom fsel with
  | some e => .next (drive s { undriven s with fval := encodeField e s.inp.fval, status := 0#5 })
  | none => .next (reportIllegal s)

end Sys2Proof.Machine
end

