-- ==== Sys2Proof/Machine/Validator.lean ====
section
/-!
DEFINITION. The bounds-range validator: VALIDATE (spec/42_validator.md R113).
-/

namespace Sys2Proof.Machine

/-- VALIDATE (R113): drives only `status`; it never repairs a record (R119). -/
def execValidate (s : State) : Host.Outcome State Fault Refusal :=
  .next (drive s { undriven s with status := validateStatus s.inp.record })

end Sys2Proof.Machine
end

