-- ==== Sys2Proof/Machine/Dispatch.lean ====
section
/-! DEFINITION. One arm per constructor of Instr, each one direct call of that instruction's meaning. -/

namespace Sys2Proof.Machine

def exec (i : Instr) (s : State) : Host.Outcome State Fault Refusal :=
  match i with
  | .decode => Sys2Proof.Machine.execDecode s
  | .encode => Sys2Proof.Machine.execEncode s
  | .fextract fsel => Sys2Proof.Machine.execFextract fsel s
  | .finsert fsel => Sys2Proof.Machine.execFinsert fsel s
  | .validate => Sys2Proof.Machine.execValidate s

end Sys2Proof.Machine
end

