-- ==== Sys2Proof/Machine/Evaluate.lean ====
section
/-!
DEFINITION. One clock cycle of the block under any parameters: which command the `cmd` port selects, whether the inputs were held for
the LATENCY window, and what is remembered of the cycle (spec/30_encoding.md R65, R70; spec/70_reset_and_hazards.md R145 to R149).
`step` (Sys2Proof/Machine/Step.lean) is this cycle at the default parameters.
-/

namespace Sys2Proof.Machine

/-- The same change made to the next state of an outcome; a stop stays as it is. -/
def mapNext (f : State → State) : Host.Outcome State Fault Refusal → Host.Outcome State Fault Refusal
  | .next s => .next (f s)
  | .fault r => .fault r
  | .refused r => .refused r

/-- The evaluation of the command on the `cmd` port: its meaning, or ILL where it is illegal (spec/30_encoding.md R65, R70). -/
def respond (s : State) : Host.Outcome State Fault Refusal :=
  match decodeCommand s.inp.cmd with
  | .ok i => exec i s
  | .error _ => .next (reportIllegal s)

/-- Two cycles present the same command and the same values on the ports it reads (R148). -/
def samePresented (a b : Inputs) : Bool :=
  inputsRead (decodeCommand a.cmd) a == inputsRead (decodeCommand a.cmd) b

/-- `cmd` and every port it reads have held their present values through the `latency` cycles before this one (R148). -/
def inputsHeld (latency : Nat) (s : State) : Bool :=
  decide (latency ≤ s.past.length) && (s.past.take latency).all (samePresented s.inp)

/-- The end of a cycle: its inputs are remembered for as long as a LATENCY window reaches. -/
def closeCycle (latency : Nat) (s : State) : State := { s with past := (s.inp :: s.past).take latency }

/-- One clock cycle: the evaluation's outputs where the inputs were held, every output `UNSPEC` where they were not (R148, R149);
a capability width other than 256 is refused (spec/00_scope.md R5). -/
def evaluateCycle (p : Params) (s : State) : Host.Outcome State Fault Refusal :=
  match p.capVariant with
  | .cap256 => mapNext (closeCycle p.latency) (if inputsHeld p.latency s then respond s else .next (reportUnstable s))
  | .cap128 => .refused (.unsupportedVariant .cap128)
  | .cap64 => .refused (.unsupportedVariant .cap64)

/-- `k` cycles in which the host changes nothing (R148: it "holds every input port"). -/
def holdCycles (p : Params) : Nat → State → Host.Outcome State Fault Refusal
  | 0, s => .next s
  | k + 1, s =>
    match evaluateCycle p s with
    | .next t => holdCycles p k t
    | .fault r => .fault r
    | .refused r => .refused r

/-- The host presents `w`, the bits of an opcode-table row, on the `cmd` port (log 5); the old outputs are not valid any more
(spec/70_reset_and_hazards.md R149). -/
def presentWord (s : State) (nbits w : Nat) : State :=
  s.present { s.inp with cmd := BitVec.ofNat 8 (w % 2 ^ nbits) }

end Sys2Proof.Machine
end

