-- ==== Sys2Proof/Machine/Step.lean ====
section
/-!
DEFINITION. One step of the machine: one clock cycle at the default parameters of spec/00_scope.md R8 (256-bit variant, LATENCY 0),
in which the block evaluates the command on its `cmd` port.
-/

namespace Sys2Proof.Machine

/-- One step: the block samples its input ports and drives its output ports once (spec/00_scope.md R14). -/
def step (s : State) : Host.Outcome State Fault Refusal := evaluateCycle Config.params s

/-- The instruction with bits `w` placed where the next step takes it: on the `cmd` port, which is where the block's operation
comes from (spec/10_state.md R22; spec/20_memory.md R55; log 5). -/
def State.withFetchWord (s : State) (nbits w : Nat) : State := presentWord s nbits w

end Sys2Proof.Machine
end

