-- ==== Sys2Proof/Machine/Assembler.lean ====
section
/-!
DEFINITION. The assembler lines of the spec's mnemonic syntax and the three pseudo-operations (spec/30_encoding.md R74, R75). A line
is one evaluation; assembling it gives the `cmd` byte and the ports the line lists. The text form is notation only (D22).
-/

namespace Sys2Proof.Machine

/-- One line: one evaluation (R74), or a pseudo-operation (R75). -/
inductive AsmLine where
  | decode (w0 w1 w2 w3 : Word) (t : Bool)
  | encode (r : Record)
  | fextract (fsel : BitVec 4) (v : Word)
  | finsert (fsel : BitVec 4) (v : Word)
  | validate (r : Record)
  | nullcap
  | getotype (v : Word)
  | getperms (v : Word)
deriving DecidableEq, Repr

/-- The expansion of a pseudo-operation; a line that is none stands for itself (R75). -/
def expandLine : AsmLine → AsmLine
  | .nullcap => .decode 0 0 0 0 false
  | .getotype v => .fextract 4#4 v
  | .getperms v => .fextract 9#4 v
  | .decode w0 w1 w2 w3 t => .decode w0 w1 w2 w3 t
  | .encode r => .encode r
  | .fextract fsel v => .fextract fsel v
  | .finsert fsel v => .finsert fsel v
  | .validate r => .validate r

/-- The command of a line, after expansion. -/
def lineCommand (l : AsmLine) : Instr :=
  match expandLine l with
  | .decode _ _ _ _ _ => .decode
  | .encode _ => .encode
  | .fextract fsel _ => .fextract fsel
  | .finsert fsel _ => .finsert fsel
  | .validate _ => .validate
  | .nullcap => .decode
  | .getotype _ => .fextract 4#4
  | .getperms _ => .fextract 9#4

/-- The input ports a line presents: its `cmd` byte and the ports it lists (R74); a port it does not list keeps the host's value
(log 14), and no rule reads it (R71). -/
def lineInputs (l : AsmLine) (i : Inputs) : Inputs :=
  let i := { i with cmd := encode (lineCommand l) }
  match expandLine l with
  | .decode w0 w1 w2 w3 t => { i with wire := imageOfWords w0 w1 w2 w3, tag := t }
  | .encode r => { i with record := r }
  | .fextract _ v => { i with fval := v }
  | .finsert _ v => { i with fval := v }
  | .validate r => { i with record := r }
  | .nullcap => i
  | .getotype _ => i
  | .getperms _ => i

end Sys2Proof.Machine
end

