-- ==== Sys2Proof/Machine/Image.lean ====
section
/-!
DEFINITION. The wire image as a byte buffer: 32 bytes at increasing addresses, word k in bytes 8k to 8k+7, the byte order within a
word a parameter (spec/20_memory.md R47). The tag is not among the bytes (R48). No command of the block reads a byte.
-/

namespace Sys2Proof.Machine

/-- Byte i of a word: bits `[8i+7:8i]` in order LE, bits `[63-8i:56-8i]` in order BE (R47). -/
def wordByte (bo : ByteOrder) (w : Word) (i : Nat) : Byte :=
  match bo with
  | .le => w.extractLsb' (8 * i) 8
  | .be => w.extractLsb' (56 - 8 * i) 8

/-- Byte n of the image: byte `n mod 8` of word `n / 8` (R47). -/
def imageByte (bo : ByteOrder) (w : Image) (n : Nat) : Byte := wordByte bo (imageWord w (n / 8)) (n % 8)

/-- The 32 bytes of an image, by increasing address (R47). -/
def imageBytes (bo : ByteOrder) (w : Image) : List Byte := (List.range 32).map (imageByte bo w)

/-- The value of a string of bytes, the first one least significant. -/
def bytesValue : List Byte → Nat
  | [] => 0
  | b :: bs => b.toNat + 256 * bytesValue bs

/-- The word whose eight bytes, by increasing address, are `bs` (R47). -/
def wordOfBytes (bo : ByteOrder) (bs : List Byte) : Word :=
  match bo with
  | .le => BitVec.ofNat 64 (bytesValue bs)
  | .be => BitVec.ofNat 64 (bytesValue bs.reverse)

/-- Bytes 8k to 8k+7 of a buffer, which hold word k (R47). -/
def wordBytes (bs : List Byte) (k : Nat) : List Byte := (bs.drop (8 * k)).take 8

/-- The image whose 32 bytes are `bs`; none where there are not exactly 32 (R47). -/
def imageOfBytes (bo : ByteOrder) (bs : List Byte) : Option Image :=
  if bs.length = 32 then
    some (imageOfWords (wordOfBytes bo (wordBytes bs 0)) (wordOfBytes bo (wordBytes bs 1)) (wordOfBytes bo (wordBytes bs 2))
      (wordOfBytes bo (wordBytes bs 3)))
  else none

end Sys2Proof.Machine
end

