-- ==== Sys2Proof/Machine/Platform.lean ====
section
/-!
DEFINITION. What the host does to the block between evaluations: it presents inputs (`State.present`, in Ops.lean), feeds a result back, moves an image between
memory bytes and the ports, pulses a reset input (spec/10_state.md R44; spec/20_memory.md R47, R48; spec/70_reset_and_hazards.md R141,
R150). None of these is a step of the machine. A host that reads a result reads it before it changes an input (R149).
-/

namespace Sys2Proof.Machine

/-- The host presents one assembler line (spec/30_encoding.md R74). -/
def State.presentLine (s : State) (l : AsmLine) : State := s.present (lineInputs l s.inp)

/-- The host feeds ENCODE's image and tag back as DECODE's (spec/70_reset_and_hazards.md R150). -/
def State.feedImage (s : State) : State :=
  s.present { s.inp with cmd := encode .decode, wire := s.out.wire, tag := s.out.tag }

/-- The host feeds DECODE's record back as ENCODE's (spec/70_reset_and_hazards.md R150). -/
def State.feedRecord (s : State) : State := s.present { s.inp with cmd := encode .encode, record := s.out.record }

/-- The host reads an image from 32 bytes of its memory, under the platform's BYTE_ORDER, and its tag from its own store
(spec/20_memory.md R47, R48); none where there are not 32 bytes. -/
def State.loadImage (p : Params) (bytes : List Byte) (tag : Bool) (s : State) : Option State :=
  (imageOfBytes p.byteOrder bytes).map fun w => s.present { s.inp with wire := w, tag := tag }

/-- The 32 bytes and the tag the host stores of ENCODE's outputs (spec/20_memory.md R47, R48). -/
def State.storeImage (p : Params) (s : State) : List Byte × Bool := (imageBytes p.byteOrder s.out.wire, s.out.tag)

/-- The platform's reset input, where it has one, has no effect on the block (spec/70_reset_and_hazards.md R141, R142). -/
def State.pulseReset (s : State) : State := s

end Sys2Proof.Machine
end

