-- ==== Sys2Proof/Safety.lean ====
section
/-!
DEFINITION. What counts as a safe evaluation, in the terms claims use: the fault status of an evaluation
(spec/60_exceptions.md R122, R133), the record invariants (spec/10_state.md R27 to R29), and the invariant of the machine.
-/

namespace Sys2Proof.Machine

/-- The command on the port is DECODE or ENCODE, the two whose RSV and INV are faults and not results (R122). -/
def codecCommand (c : Command) : Bool :=
  match decodeCommand c with
  | .ok .decode => true
  | .ok .encode => true
  | .ok (.fextract _) => false
  | .ok (.finsert _) => false
  | .ok .validate => false
  | .error _ => false

/-- The faults of the evaluation whose inputs and outputs stand in `s` (R133): ILL of any command, RSV and INV of DECODE and
ENCODE; a bit of VALIDATE is a result. -/
def statusFaults (s : State) : List Fault :=
  (if hasBit s.out.status illBit then [.illegalCommand] else []) ++
  (if codecCommand s.inp.cmd && hasBit s.out.status rsvBit then [.reservedBits] else []) ++
  (if codecCommand s.inp.cmd && hasBit s.out.status invBit then [.invertedBounds] else [])

/-- "No fault status", the premise of a claim about the block (R133). -/
def noFaultStatus (s : State) : Bool := statusFaults s == []

/-- Record invariant 1: `top >= base` (spec/10_state.md R27). -/
def boundsOrdered (r : Record) : Bool := decide (r.base.toNat ≤ r.top.toNat)

/-- Record invariant 2: tag 1 implies reserved 0 (spec/10_state.md R28). -/
def reservedClear (r : Record) : Bool := !r.tag || r.reserved == 0#8

/-- The width constraint of a tagged record: `perms[14:12] = 0` (spec/10_state.md R29). -/
def permsInWidth (r : Record) : Bool := !r.tag || r.perms.extractLsb' 12 3 == 0#3

/-- The ROM holds the values built into the block (spec/10_state.md R36, R37; spec/70_reset_and_hazards.md R142). -/
def romBuiltIn (s : State) : Prop := s.rom = rom256

/-- A status value an evaluation with stable inputs can drive: ILL excludes every other bit, INV and SAT exclude each other
(spec/60_exceptions.md R126). -/
def statusLegal (st : Status) : Bool :=
  (!hasBit st illBit || st == illBit) && !(hasBit st invBit && hasBit st satBit)

/-- The invariant of the machine at LATENCY 0: the ROM is the built-in one, the status output holds a value R126 allows, and no
earlier cycle is remembered. -/
def MachineInv (s : State) : Prop := romBuiltIn s ∧ statusLegal s.out.status = true ∧ s.past = []

end Sys2Proof.Machine
end

