-- ==== Sys2Proof/Certificates/Slice0/Obligations.lean ====
section
/-!
DEFINITION. The statements for the provers, each a numbered rule of spec/ or a claim derived from several. Results are written in plain
arithmetic of natural numbers (division, remainder, sums), so that they do not repeat the model's bit operations.

An `UNSPEC` output is left open: a statement of a result says nothing about it. That the model leaves it to a free draw, and what
becomes of the model's own fields `draws` (log 2) and `past` (log 7), is stated apart, as the model's choice.
-/

namespace Sys2Proof.Claims

open Sys2Proof.Machine

/-- Column `start` of R36's table. -/
def fieldStart : Nat → Nat
  | 0 => 0
  | 1 => 1
  | 2 => 13
  | 3 => 16
  | 4 => 32
  | 5 => 56
  | 6 => 0
  | 7 => 0
  | 8 => 0
  | _ => 1

/-- Column `size` of R36's table. -/
def fieldSize : Nat → Nat
  | 0 => 1
  | 1 => 12
  | 2 => 3
  | 3 => 16
  | 4 => 24
  | 5 => 8
  | 6 => 64
  | 7 => 64
  | 8 => 64
  | _ => 15

/-- Word k of an image as a number: `wire[64k+63:64k]`. -/
def wordNat (w : Image) (k : Nat) : Nat := w.toNat / 2 ^ (64 * k) % 2 ^ 64

/-- The number of permission values under a tag: 12 bits when tagged, 15 when not. -/
def permRange (tag : Bool) : Nat := if tag then 2 ^ 12 else 2 ^ 15

/-- `out.rec` of DECODE, in numbers (R90). -/
def decodedNat (w : Image) (t : Bool) : Record :=
  { base := BitVec.ofNat 64 (wordNat w 2)
    top := BitVec.ofNat 65 (wordNat w 2 + (2 ^ 64 - 1 - wordNat w 3))
    cursor := BitVec.ofNat 64 (wordNat w 1)
    perms := BitVec.ofNat 15 (wordNat w 0 / 2 % permRange t)
    uperms := BitVec.ofNat 16 (wordNat w 0 / 2 ^ 16 % 2 ^ 16)
    otype := BitVec.ofNat 24 (2 ^ 24 - 1 - wordNat w 0 / 2 ^ 32 % 2 ^ 24)
    flags := BitVec.ofNat 1 (wordNat w 0 % 2)
    reserved := BitVec.ofNat 8 (wordNat w 0 / 2 ^ 56)
    tag := t }

/-- Word 0 of ENCODE's image, as a sum of its fields at their positions (R58, R102, R104). -/
def encodedWord0Nat (r : Record) : Nat :=
  r.flags.toNat + 2 * (r.perms.toNat % permRange r.tag) + 2 ^ 16 * r.uperms.toNat + 2 ^ 32 * (2 ^ 24 - 1 - r.otype.toNat) +
    2 ^ 56 * r.reserved.toNat

/-- The saturated length (R105). -/
def clampedLength (r : Record) : Nat := min (r.top.toNat - r.base.toNat) (2 ^ 64 - 1)

/-- ENCODE's image as a number, four words (R46, R102). -/
def encodedNat (r : Record) : Nat :=
  encodedWord0Nat r + 2 ^ 64 * r.cursor.toNat + 2 ^ 128 * r.base.toNat + 2 ^ 192 * (2 ^ 64 - 1 - clampedLength r)

/-- The status with exactly these bits (R121: ILL 1, RSV 2, INV 4, PDROP 8, SAT 16). -/
def statusOf (ill rsv inv pdrop sat : Bool) : Status :=
  BitVec.ofNat 5 (ill.toNat + 2 * rsv.toNat + 4 * inv.toNat + 8 * pdrop.toNat + 16 * sat.toNat)

/-- The command words R70 calls illegal, in R70's words. -/
abbrev illegalWord (c : Command) : Prop :=
  c.toNat / 128 = 1 ∨ c.toNat % 8 = 5 ∨ c.toNat % 8 = 6 ∨ c.toNat % 8 = 7 ∨
    ((c.toNat % 8 = 0 ∨ c.toNat % 8 = 1 ∨ c.toNat % 8 = 4) ∧ c.toNat / 8 % 16 ≠ 0) ∨
    ((c.toNat % 8 = 2 ∨ c.toNat % 8 = 3) ∧ 10 ≤ c.toNat / 8 % 16)

/-- The 23 legal command words (R69). -/
def legalWords : List Command :=
  [0x00#8, 0x01#8, 0x02#8, 0x0A#8, 0x12#8, 0x1A#8, 0x22#8, 0x2A#8, 0x32#8, 0x3A#8, 0x42#8, 0x4A#8,
   0x03#8, 0x0B#8, 0x13#8, 0x1B#8, 0x23#8, 0x2B#8, 0x33#8, 0x3B#8, 0x43#8, 0x4B#8, 0x04#8]

/-- `cmd` or a port the command reads differs between two cycles (R71, R148). -/
def presentedDiffers (now old : Inputs) : Prop :=
  now.cmd ≠ old.cmd ∨
  (decodeCommand now.cmd = .ok .decode ∧ (now.wire ≠ old.wire ∨ now.tag ≠ old.tag)) ∨
  ((decodeCommand now.cmd = .ok .encode ∨ decodeCommand now.cmd = .ok .validate) ∧ now.record ≠ old.record) ∨
  ((∃ f, decodeCommand now.cmd = .ok (.fextract f) ∨ decodeCommand now.cmd = .ok (.finsert f)) ∧ now.fval ≠ old.fval)

/-- One row of R36's table: word, start, last, size, mask_unshifted, mask64, max_value. -/
def romRow (word start last size mask mask64 maxv : Nat) : RomEntry :=
  { word := BitVec.ofNat 2 word, start := BitVec.ofNat 6 start, last := BitVec.ofNat 6 last, size := BitVec.ofNat 7 size
    maskUnshifted := BitVec.ofNat 64 mask, mask64 := BitVec.ofNat 64 mask64, maxValue := BitVec.ofNat 64 maxv }

end Sys2Proof.Claims

open Sys2Proof Sys2Proof.Machine Sys2Proof.Claims

/-! ### Commands and their encoding -/

/-- Every well-formed command survives the encoder and the decoder. -/
def Obligations.DecodeOfEncodedCommand : Prop :=
  ∀ i : Instr, i.wf = true → decodeCommand (encode i) = .ok i

/-- Every word the decoder accepts is the encoding of the well-formed command it gives. -/
def Obligations.EncodeOfDecodedCommand : Prop :=
  ∀ (c : Command) (i : Instr), decodeCommand c = .ok i → encode i = c ∧ i.wf = true

/-- R69: the legal commands under match and mask, and no other; 23 of them. -/
def Obligations.LegalCommandTable : Prop :=
  legalWords.length = 23 ∧ legalWords.Nodup ∧
  ∀ c : Command,
    ((∃ i, decodeCommand c = .ok i) ↔ c ∈ legalWords) ∧
    (decodeCommand c = .ok .decode ↔ c &&& 0xFF#8 = 0x00#8) ∧
    (decodeCommand c = .ok .encode ↔ c &&& 0xFF#8 = 0x01#8) ∧
    (decodeCommand c = .ok .validate ↔ c &&& 0xFF#8 = 0x04#8) ∧
    (∀ f, decodeCommand c = .ok (.fextract f) ↔ f.toNat < 10 ∧ c.toNat = 0x02 + 8 * f.toNat) ∧
    (∀ f, decodeCommand c = .ok (.finsert f) ↔ f.toNat < 10 ∧ c.toNat = 0x03 + 8 * f.toNat) ∧
    (∀ f, decodeCommand c = .ok (.fextract f) → c &&& 0x87#8 = 0x02#8) ∧
    (∀ f, decodeCommand c = .ok (.finsert f) → c &&& 0x87#8 = 0x03#8)

/-- One word of each command written out from R65 to R67 decodes to that command. -/
def Obligations.SpelledWordsDecode : Prop :=
  decodeCommand 0b00000000#8 = .ok .decode ∧ decodeCommand 0b00000001#8 = .ok .encode ∧
  decodeCommand 0b00100010#8 = .ok (.fextract 4#4) ∧ decodeCommand 0b01001011#8 = .ok (.finsert 9#4) ∧
  decodeCommand 0b00000100#8 = .ok .validate ∧ decodeTableWord 8 0x22 = some (.fextract 4#4)

/-- R68, R70, R123: a command is illegal on R70's grounds and no others; its evaluation sets status ILL exactly, whatever the other
inputs are; every data output is UNSPEC, so nothing is said of it; no input port and no ROM entry changes. -/
def Obligations.IllegalCommandReportsIll : Prop :=
  (∀ c : Command, illegalWord c ↔ ∃ e, decodeCommand c = .error e) ∧
  ∀ s : State, illegalWord s.inp.cmd →
    ∃ t, step s = .next t ∧ t.out.status = statusOf true false false false false ∧ t.inp = s.inp ∧ t.rom = s.rom

/-- A well-formed command placed by the host for the next step (log 5): the table's decoder gives it, the step decodes it, and of
the input ports, the ROM and the earlier cycles nothing but the `cmd` port changes. -/
def Obligations.FetchWordPlacesCommand : Prop :=
  ∀ (s : State) (i : Instr), i.wf = true →
    decodeTableWord 8 (encode i).toNat = some i ∧
    decodeCommand (s.withFetchWord 8 (encode i).toNat).inp.cmd = .ok i ∧
    (s.withFetchWord 8 (encode i).toNat).inp = { s.inp with cmd := encode i } ∧
    (s.withFetchWord 8 (encode i).toNat).rom = s.rom ∧ (s.withFetchWord 8 (encode i).toNat).past = s.past

/-! ### The machine -/

/-- A step at a command the decoder accepts is that command's meaning; around it a step at LATENCY 0 only forgets earlier cycles
(`past`, the model's own, log 7). -/
def Obligations.StepRunsDecodedCommand : Prop :=
  ∀ (s : State) (i : Instr), decodeCommand s.inp.cmd = .ok i →
    step s = mapNext (fun t => { t with past := [] }) (exec i s)

/-- R140: no evaluation can hang or be aborted: every command completes in every state, and so does every cycle of the 256-bit
variant under every LATENCY, legal command or not. -/
def Obligations.EveryEvaluationCompletes : Prop :=
  (∀ (i : Instr) (s : State), ∃ t, exec i s = .next t) ∧
  (∀ (p : Params) (s : State), p.capVariant = .cap256 → ∃ t, evaluateCycle p s = .next t) ∧
  (∀ s : State, ∃ t, step s = .next t)

/-- R5: a request for a 64-bit or 128-bit variant is refused by name, in every state. -/
def Obligations.OtherVariantsRefused : Prop :=
  ∀ (p : Params) (s : State), p.capVariant = .cap64 ∨ p.capVariant = .cap128 →
    evaluateCycle p s = .refused (.unsupportedVariant p.capVariant)

/-- What every command leaves unchanged: the input ports and the ROM. The output ports are all driven anew (R24). The clauses on
`past` and `draws` are about the model's own fields (log 7, log 2). -/
def Obligations.CommandFrame : Prop :=
  ∀ (i : Instr) (s : State), ∃ t, exec i s = .next t ∧
    t.inp = s.inp ∧ t.rom = s.rom ∧ t.past = s.past ∧ t.draws = s.draws + 1

/-- The model's form of UNSPEC (log 2): every port that a command does not drive carries the free draw of its evaluation, ENCODE's
image too where the bounds are inverted, and so does every port but `status` under an illegal command. -/
def Obligations.UndrivenOutputsAreFreeDraws : Prop :=
  ∀ s : State,
    (∃ t, exec .decode s = .next t ∧ t.out.wire = (Config.unspec s.draws s.inp).wire ∧
      t.out.tag = (Config.unspec s.draws s.inp).tag ∧ t.out.fval = (Config.unspec s.draws s.inp).fval) ∧
    (∃ t, exec .encode s = .next t ∧ t.out.record = (Config.unspec s.draws s.inp).record ∧
      t.out.fval = (Config.unspec s.draws s.inp).fval ∧
      (s.inp.record.top.toNat < s.inp.record.base.toNat → t.out.wire = (Config.unspec s.draws s.inp).wire)) ∧
    (∀ f, (∃ t, exec (.fextract f) s = .next t ∧ t.out.wire = (Config.unspec s.draws s.inp).wire ∧
        t.out.tag = (Config.unspec s.draws s.inp).tag ∧ t.out.record = (Config.unspec s.draws s.inp).record) ∧
      (∃ t, exec (.finsert f) s = .next t ∧ t.out.wire = (Config.unspec s.draws s.inp).wire ∧
        t.out.tag = (Config.unspec s.draws s.inp).tag ∧ t.out.record = (Config.unspec s.draws s.inp).record)) ∧
    (∃ t, exec .validate s = .next t ∧ t.out = { Config.unspec s.draws s.inp with status := t.out.status }) ∧
    (illegalWord s.inp.cmd →
      ∃ t, step s = .next t ∧ t.out = { Config.unspec s.draws s.inp with status := t.out.status })

/-- R37: no cycle, legal command or not, stable inputs or not, under any LATENCY, writes the ROM or an input port; and it remembers
no more cycles than the LATENCY window has (`past`, log 7). -/
def Obligations.CycleKeepsRomAndInputs : Prop :=
  ∀ (p : Params) (s t : State), evaluateCycle p s = .next t →
    t.rom = s.rom ∧ t.inp = s.inp ∧ t.past.length ≤ p.latency

/-- The invariant of the machine holds at reset (its clause on `past` is the model's choice, log 7; its clause on `status` holds of
the reset value the model chose, log 4). -/
def Obligations.ResetMeetsInvariant : Prop := MachineInv State.reset

/-- Every step from every state that meets the invariant keeps it: the ROM stays the built-in one, and the status output is a value
R126 allows. -/
def Obligations.StepKeepsInvariant : Prop :=
  ∀ s t : State, MachineInv s → step s = .next t → MachineInv t

/-- At reset the outputs are already the function of the inputs on the ports (R43, R141): what the first evaluation drives, they
hold. The inputs at reset are the model's choice (log 3). -/
def Obligations.ResetOutputsAreEvaluated : Prop :=
  ∃ t, step State.reset = .next t ∧ respond State.reset = exec .decode State.reset ∧
    t.out.record = State.reset.out.record ∧ t.out.status = State.reset.out.status

/-- After the host presents inputs, by any of its operations, every output is a free draw until the next evaluation: no output
register holds the old result (R149). The form of the draw is the model's (log 8). -/
def Obligations.PresentingInvalidatesOutputs : Prop :=
  ∀ s : State,
    (∀ i, (s.present i).inp = i ∧ (s.present i).rom = s.rom ∧
      (s.present i).out = Config.unspecUnstable s.draws (i :: s.inp :: s.past)) ∧
    (∀ nbits w, (s.withFetchWord nbits w).out =
      Config.unspecUnstable s.draws ((s.withFetchWord nbits w).inp :: s.inp :: s.past)) ∧
    (∀ l, (s.presentLine l).out = Config.unspecUnstable s.draws ((s.presentLine l).inp :: s.inp :: s.past)) ∧
    s.feedImage.out = Config.unspecUnstable s.draws (s.feedImage.inp :: s.inp :: s.past) ∧
    s.feedRecord.out = Config.unspecUnstable s.draws (s.feedRecord.inp :: s.inp :: s.past) ∧
    (∀ p bytes tag t, State.loadImage p bytes tag s = some t →
      t.out = Config.unspecUnstable s.draws (t.inp :: s.inp :: s.past))

/-! ### Timing -/

/-- R145: with the inputs held, the outputs of every cycle from LATENCY cycles after their presentation on are those of the
evaluation, the same LATENCY for every command, value and status. The clauses on `draws` and `past` are the model's (log 2, log
7). -/
def Obligations.HeldInputsEvaluateAfterLatency : Prop :=
  ∀ (p : Params) (s : State) (n : Nat), p.capVariant = .cap256 → p.latency ≤ n →
    ∃ u t, holdCycles p n s = .next u ∧ u.inp = s.inp ∧ u.rom = s.rom ∧ u.draws = s.draws + n ∧
      respond u = .next t ∧ evaluateCycle p u = .next { t with past := (u.inp :: u.past).take p.latency }

/-- R148: a cycle whose command or read ports differ from those of any cycle in the LATENCY window before it drives every output
UNSPEC; one whose window holds LATENCY cycles that all agree with it drives the evaluation's outputs. The form of the free draw and
the field `past` are the model's (log 7, log 8). -/
def Obligations.WindowDecidesOutputs : Prop :=
  ∀ (p : Params) (s : State), p.capVariant = .cap256 →
    ((∃ k old, k < p.latency ∧ s.past[k]? = some old ∧ presentedDiffers s.inp old) →
      evaluateCycle p s = .next { s with
        out := Config.unspecUnstable s.draws (s.inp :: s.past)
        past := (s.inp :: s.past).take p.latency
        draws := s.draws + 1 }) ∧
    ((p.latency ≤ s.past.length ∧ ∀ k old, k < p.latency → s.past[k]? = some old → ¬ presentedDiffers s.inp old) →
      ∃ t, respond s = .next t ∧
        evaluateCycle p s = .next { t with past := (t.inp :: t.past).take p.latency })

/-! ### The field layout ROM -/

/-- R36: the ROM at reset, entry by entry, and the reserved selectors. -/
def Obligations.ResetRomIsTable : Prop :=
  romSelect State.reset.rom 0#4 = some (romRow 0 0 0 1 0x1 0x1 1) ∧
  romSelect State.reset.rom 1#4 = some (romRow 0 1 12 12 0xFFF 0x1FFE 4095) ∧
  romSelect State.reset.rom 2#4 = some (romRow 0 13 15 3 0x7 0xE000 7) ∧
  romSelect State.reset.rom 3#4 = some (romRow 0 16 31 16 0xFFFF 0xFFFF0000 65535) ∧
  romSelect State.reset.rom 4#4 = some (romRow 0 32 55 24 0xFFFFFF 0x00FFFFFF00000000 16777215) ∧
  romSelect State.reset.rom 5#4 = some (romRow 0 56 63 8 0xFF 0xFF00000000000000 255) ∧
  romSelect State.reset.rom 6#4 = some (romRow 1 0 63 64 0xFFFFFFFFFFFFFFFF 0xFFFFFFFFFFFFFFFF (2 ^ 64 - 1)) ∧
  romSelect State.reset.rom 7#4 = some (romRow 2 0 63 64 0xFFFFFFFFFFFFFFFF 0xFFFFFFFFFFFFFFFF (2 ^ 64 - 1)) ∧
  romSelect State.reset.rom 8#4 = some (romRow 3 0 63 64 0xFFFFFFFFFFFFFFFF 0xFFFFFFFFFFFFFFFF (2 ^ 64 - 1)) ∧
  romSelect State.reset.rom 9#4 = some (romRow 0 1 15 15 0x7FFF 0xFFFE 32767) ∧
  ∀ f : BitVec 4, 10 ≤ f.toNat → romSelect State.reset.rom f = none ∧
    decodeCommand (encode (.fextract f)) = .error .reservedSelector ∧
    decodeCommand (encode (.finsert f)) = .error .reservedSelector

/-- The partition property of R39, which the spec derives from R36's table: every wire bit lies in exactly one of the fields 0 to
8, and their sizes sum to 256. -/
def Obligations.FieldsPartitionImage : Prop :=
  totalWidth (romPartition rom256) = 256 ∧
  ∀ (k : Fin 4) (b : Fin 64),
    ((romPartition rom256).filter fun e => decide (e.word.toNat = k.val) && e.mask64.getLsbD b.val).length = 1

/-- R79: the derived values of every placement the generator admits, with no bit lost to the widths of the ROM. -/
def Obligations.GeneratorDerivesEntries : Prop :=
  ∀ p : Placement, placementAdmitted p = true →
    1 ≤ (romEntry p).size.toNat ∧ (romEntry p).size.toNat ≤ 64 ∧
    (romEntry p).size.toNat = p.last - p.start + 1 ∧
    (romEntry p).word.toNat = p.word ∧ (romEntry p).start.toNat = p.start ∧ (romEntry p).last.toNat = p.last ∧
    (romEntry p).maskUnshifted.toNat = 2 ^ (p.last - p.start + 1) - 1 ∧
    (romEntry p).mask64.toNat = (2 ^ (p.last - p.start + 1) - 1) * 2 ^ p.start ∧
    (romEntry p).maxValue = (romEntry p).maskUnshifted

/-- R77, R78: normalization of a field declared in the 256-bit frame or within a word; a field that crosses a word is refused, and
no layout that contains one is built; the 256-bit layout contains none. -/
def Obligations.NormalizationAndRefusal : Prop :=
  (∀ d : Declared, d.start ≤ d.last → d.last ≤ 255 →
    (d.last / 64 = d.start / 64 →
      placeInFrame d = some { word := d.start / 64, start := d.start % 64, last := d.last % 64 } ∧
      d.start % 64 ≤ d.last % 64 ∧ d.last % 64 ≤ 63) ∧
    (d.last / 64 ≠ d.start / 64 → placeInFrame d = none ∧ ∀ ds, d ∈ ds → buildRom ds = none)) ∧
  (∀ (w : Nat) (d : Declared), w < 4 → d.start ≤ d.last → d.last ≤ 63 →
    placeInWord w d = some { word := w, start := d.start, last := d.last }) ∧
  (∀ d ∈ declared256, d.last / 64 = d.start / 64)

/-- R82: a field declared relative to another has that field's start added to both ends, keeps its size, and is refused where it
leaves the word. The clause on `word` is no rule of the spec: that the field lies in the word of `g` is the model's choice (log 17). -/
def Obligations.RelativeFieldPlacement : Prop :=
  ∀ (g : Placement) (d : Declared), placementAdmitted g = true → d.start ≤ d.last →
    (d.last + g.start ≤ 63 → ∃ p, placeRelative g d = some p ∧ p.word = g.word ∧ p.start = d.start + g.start ∧
      p.last = d.last + g.start ∧ (romEntry p).size.toNat = d.last - d.start + 1 ∧
      (romEntry p).mask64.toNat = (2 ^ (d.last - d.start + 1) - 1) * 2 ^ (d.start + g.start)) ∧
    (63 < d.last + g.start → placeRelative g d = none)

/-- R83: the declared 256-bit layout passes the build-time checks and gives the ROM; a layout that is built has total width 256 and
no two of its fields 0 to 8 overlap in a word. -/
def Obligations.BuiltLayoutPassesChecks : Prop :=
  buildRom declared256 = some rom256 ∧
  ∀ ds rom, buildRom ds = some rom →
    ((romPartition rom).map fun e => e.size.toNat).sum = 256 ∧
    (romPartition rom).Pairwise (fun a b => a.word = b.word → a.mask64 &&& b.mask64 = 0#64) ∧
    ∀ k : BitVec 2, coveredBits (romPartition rom) k = BitVec.allOnes 64

/-! ### FEXTRACT and FINSERT -/

/-- R85: FEXTRACT, its encoding, its result for every selector, and what it leaves alone. -/
def Obligations.FextractResult : Prop :=
  (∀ f : BitVec 4, (encode (.fextract f)).toNat = 0x02 + 8 * f.toNat ∧
    (10 ≤ f.toNat → ∃ e, decodeCommand (encode (.fextract f)) = .error e)) ∧
  ∀ (s : State) (f : BitVec 4), romBuiltIn s → f.toNat < 10 →
    ∃ t, exec (.fextract f) s = .next t ∧
      t.out.fval = BitVec.ofNat 64 (s.inp.fval.toNat / 2 ^ fieldStart f.toNat % 2 ^ fieldSize f.toNat) ∧
      t.out.status = 0#5 ∧ t.inp = s.inp ∧ t.rom = s.rom

/-- R86, R128: FINSERT, its encoding, its result for every selector, and what it leaves alone; truncation sets no bit. -/
def Obligations.FinsertResult : Prop :=
  (∀ f : BitVec 4, (encode (.finsert f)).toNat = 0x03 + 8 * f.toNat ∧
    (10 ≤ f.toNat → ∃ e, decodeCommand (encode (.finsert f)) = .error e)) ∧
  ∀ (s : State) (f : BitVec 4), romBuiltIn s → f.toNat < 10 →
    ∃ t, exec (.finsert f) s = .next t ∧
      t.out.fval = BitVec.ofNat 64 (s.inp.fval.toNat % 2 ^ fieldSize f.toNat * 2 ^ fieldStart f.toNat) ∧
      t.out.status = 0#5 ∧ t.inp = s.inp ∧ t.rom = s.rom

/-- R80, R81: the two semantic functions over unbounded integers; a placed value lies within its field, an extracted one is at most
the field's largest value. -/
def Obligations.FieldFunctionsExact : Prop :=
  ∀ (f : BitVec 4) (e : RomEntry) (v : Word), romSelect rom256 f = some e →
    (encodeField e v).toNat = (v.toNat &&& e.maxValue.toNat) <<< e.start.toNat ∧
    encodeField e v &&& ~~~e.mask64 = 0#64 ∧
    (extractField e v).toNat = (v.toNat >>> e.start.toNat) &&& e.maskUnshifted.toNat ∧
    (extractField e v).toNat ≤ e.maxValue.toNat

/-- The laws of R87, which the spec derives from R80 and R81: extracting a placed value gives it truncated; placing an extracted
one gives the word masked. -/
def Obligations.FieldFunctionLaws : Prop :=
  ∀ (f : BitVec 4) (e : RomEntry) (v w : Word), romSelect rom256 f = some e →
    extractField e (encodeField e v) = v &&& e.maxValue ∧ encodeField e (extractField e w) = w &&& e.mask64

/-- The law of R88, which the spec derives: word 0 is the OR of its six fields; words 1 to 3 are one field each. -/
def Obligations.WordIsOrOfItsFields : Prop :=
  ∀ w : Word,
    w = encodeField rom256.flags (extractField rom256.flags w) ||| encodeField rom256.perms (extractField rom256.perms w) |||
      encodeField rom256.resperms (extractField rom256.resperms w) ||| encodeField rom256.uperms (extractField rom256.uperms w) |||
      encodeField rom256.otype (extractField rom256.otype w) ||| encodeField rom256.reserved (extractField rom256.reserved w) ∧
    w = encodeField rom256.cursor (extractField rom256.cursor w) ∧
    w = encodeField rom256.base (extractField rom256.base w) ∧
    w = encodeField rom256.length (extractField rom256.length w)

/-! ### DECODE -/

/-- R90, R91, R92, R93, R95, R96, R99, R100, R101: DECODE, every output it drives and what it leaves alone, for every image and
tag. -/
def Obligations.DecodeResult : Prop :=
  encode .decode = 0x00#8 ∧
  ∀ s : State, ∃ t, exec .decode s = .next t ∧
    t.out.record = decodedNat s.inp.wire s.inp.tag ∧
    t.out.status = statusOf false (s.inp.tag && decide (wordNat s.inp.wire 0 / 2 ^ 56 ≠ 0)) false false false ∧
    t.inp = s.inp ∧ t.rom = s.rom

/-- R98: the decoded top is the exact sum of base and length, and its largest value, `2^65 - 2`, is reached. -/
def Obligations.DecodedTopExact : Prop :=
  (∀ s : State, ∃ t, exec .decode s = .next t ∧
    t.out.record.top.toNat = wordNat s.inp.wire 2 + (2 ^ 64 - 1 - wordNat s.inp.wire 3) ∧
    t.out.record.top.toNat ≤ 2 ^ 65 - 2) ∧
  (∃ s t : State, exec .decode s = .next t ∧ t.out.record.top.toNat = 2 ^ 65 - 2)

/-- The law of R112, which the spec derives from R97 and R98: a decoded record meets
`base <= top <= base + 2^64 - 1 <= 2^65 - 2` and never saturates when it is encoded again; of invariant 2 DECODE guarantees
nothing. -/
def Obligations.DecodedRecordBounds : Prop :=
  (∀ s : State, ∃ t, exec .decode s = .next t ∧
    t.out.record.base.toNat ≤ t.out.record.top.toNat ∧
    t.out.record.top.toNat ≤ t.out.record.base.toNat + (2 ^ 64 - 1) ∧
    t.out.record.base.toNat + (2 ^ 64 - 1) ≤ 2 ^ 65 - 2 ∧
    clampedLength t.out.record = t.out.record.top.toNat - t.out.record.base.toNat) ∧
  (∃ s t : State, exec .decode s = .next t ∧ t.out.record.tag = true ∧ t.out.record.reserved ≠ 0#8)

/-- R61, R97: the stored form of a length, at its ends too, and the null record, whose top is `2^64 - 1` (C4). -/
def Obligations.StoredLengthAndNullRecord : Prop :=
  (∀ w : Word, (lengthXor w).toNat = 2 ^ 64 - 1 - w.toNat ∧ lengthXor (lengthXor w) = w) ∧
  lengthXor 0#64 = BitVec.allOnes 64 ∧ lengthXor (BitVec.allOnes 64) = 0#64 ∧
  ∀ s : State, s.inp.wire = 0#256 → s.inp.tag = false →
    ∃ t, exec .decode s = .next t ∧ t.out.status = 0#5 ∧
      t.out.record = { base := 0#64, top := BitVec.ofNat 65 (2 ^ 64 - 1), cursor := 0#64, perms := 0#15, uperms := 0#16,
                       otype := 0xFFFFFF#24, flags := 0#1, reserved := 0#8, tag := false }

/-- The table of R60, which the spec derives from R58 and R30: the class of a decoded object type by its stored 24 bits; and the
stored form both ways. -/
def Obligations.StoredOtypeClasses : Prop :=
  (∀ v : BitVec 24, (otypeXor v).toNat = 2 ^ 24 - 1 - v.toNat ∧ otypeXor (otypeXor v) = v) ∧
  ∀ s : State, ∃ t, exec .decode s = .next t ∧
    (otypeClass t.out.record.otype = .unsealed ↔ wordNat s.inp.wire 0 / 2 ^ 32 % 2 ^ 24 = 0) ∧
    (otypeClass t.out.record.otype = .sentry ↔ wordNat s.inp.wire 0 / 2 ^ 32 % 2 ^ 24 = 1) ∧
    (otypeClass t.out.record.otype = .reservedSentinel ↔
      2 ≤ wordNat s.inp.wire 0 / 2 ^ 32 % 2 ^ 24 ∧ wordNat s.inp.wire 0 / 2 ^ 32 % 2 ^ 24 ≤ 15) ∧
    (otypeClass t.out.record.otype = .sealed ↔ 16 ≤ wordNat s.inp.wire 0 / 2 ^ 32 % 2 ^ 24)

/-! ### ENCODE -/

/-- R102, R103, R104, R106, R107, R108, R109, R127: ENCODE, every output it drives and what it leaves alone, for every record:
with `top < base` status INV is set and the image is UNSPEC, so nothing is said of it; otherwise the image holds the clamped
length (R105) and no status reports the clamp. -/
def Obligations.EncodeResult : Prop :=
  encode .encode = 0x01#8 ∧
  ∀ s : State, romBuiltIn s →
    ∃ t, exec .encode s = .next t ∧
      (s.inp.record.base.toNat ≤ s.inp.record.top.toNat → t.out.wire = BitVec.ofNat 256 (encodedNat s.inp.record)) ∧
      t.out.tag = s.inp.record.tag ∧
      t.out.status = statusOf false (s.inp.record.tag && decide (s.inp.record.reserved.toNat ≠ 0))
        (decide (s.inp.record.top.toNat < s.inp.record.base.toNat)) false false ∧
      t.inp = s.inp ∧ t.rom = s.rom

/-! ### VALIDATE -/

/-- R113 to R117, R119: VALIDATE, its status, and that it changes no record, for every record. -/
def Obligations.ValidateResult : Prop :=
  encode .validate = 0x04#8 ∧
  ∀ s : State, ∃ t, exec .validate s = .next t ∧
    t.out.status = statusOf false (s.inp.record.tag && decide (s.inp.record.reserved.toNat ≠ 0))
      (decide (s.inp.record.top.toNat < s.inp.record.base.toNat))
      (s.inp.record.tag && decide (s.inp.record.perms.toNat / 2 ^ 12 ≠ 0))
      (decide (s.inp.record.base.toNat ≤ s.inp.record.top.toNat ∧
        2 ^ 64 - 1 < s.inp.record.top.toNat - s.inp.record.base.toNat)) ∧
    t.inp = s.inp ∧ t.rom = s.rom

/-- R118: the verdicts of VALIDATE's status, in terms of the record. -/
def Obligations.ValidateVerdicts : Prop :=
  ∀ s : State, ∃ t, exec .validate s = .next t ∧
    (verdictValid t.out.status = true ↔
      s.inp.record.base.toNat ≤ s.inp.record.top.toNat ∧
      (s.inp.record.tag = true → s.inp.record.reserved.toNat = 0 ∧ s.inp.record.perms.toNat < 2 ^ 12)) ∧
    (verdictExact t.out.status = true ↔
      verdictValid t.out.status = true ∧ s.inp.record.top.toNat - s.inp.record.base.toNat ≤ 2 ^ 64 - 1)

/-! ### Status and faults -/

/-- R122: which status bits each command can set; VALIDATE's are no faults. -/
def Obligations.StatusBitsByCommand : Prop :=
  ∀ s : State, ∃ t, step s = .next t ∧
    (decodeCommand s.inp.cmd = .ok .decode → t.out.status = 0#5 ∨ t.out.status = 0x02#5) ∧
    (decodeCommand s.inp.cmd = .ok .encode → t.out.status &&& 0x19#5 = 0#5) ∧
    (∀ f, decodeCommand s.inp.cmd = .ok (.fextract f) ∨ decodeCommand s.inp.cmd = .ok (.finsert f) → t.out.status = 0#5) ∧
    (decodeCommand s.inp.cmd = .ok .validate → t.out.status &&& 0x01#5 = 0#5 ∧ t.out.status &&& 0x14#5 ≠ 0x14#5 ∧
      statusFaults t = []) ∧
    (∀ e, decodeCommand s.inp.cmd = .error e → t.out.status = 0x01#5)

/-- R133: which evaluations are faults: any that sets ILL, and DECODE or ENCODE that sets RSV or INV, with the condition of each.
The evaluation still answers a next state: that a fault is a verdict on it and no stop is the model's reading (log 6). -/
def Obligations.FaultsOfAnEvaluation : Prop :=
  ∀ s : State, ∃ t, step s = .next t ∧
    (Fault.illegalCommand ∈ statusFaults t ↔ illegalWord s.inp.cmd) ∧
    (Fault.reservedBits ∈ statusFaults t ↔
      (s.inp.cmd = 0x00#8 ∧ s.inp.tag = true ∧ wordNat s.inp.wire 0 / 2 ^ 56 ≠ 0) ∨
      (s.inp.cmd = 0x01#8 ∧ s.inp.record.tag = true ∧ s.inp.record.reserved ≠ 0#8)) ∧
    (Fault.invertedBounds ∈ statusFaults t ↔ s.inp.cmd = 0x01#8 ∧ s.inp.record.top.toNat < s.inp.record.base.toNat)

/-! ### Which inputs matter -/

/-- R31: no status bit depends on the record's cursor, whatever the command, nor in DECODE on word 1 of the image, which it passes
on as the cursor. -/
def Obligations.CursorIsNeverChecked : Prop :=
  (∀ (i : Instr) (s : State) (c : Word), ∃ t u,
    exec i s = .next t ∧ exec i { s with inp := { s.inp with record := { s.inp.record with cursor := c } } } = .next u ∧
    t.out.status = u.out.status) ∧
  ∀ (s : State) (w0 w1 w2 w3 c : Word), ∃ t u,
    exec .decode { s with inp := { s.inp with wire := imageOfWords w0 w1 w2 w3 } } = .next t ∧
    exec .decode { s with inp := { s.inp with wire := imageOfWords w0 c w2 w3 } } = .next u ∧
    t.out.status = u.out.status ∧ u.out.record = { t.out.record with cursor := c }

/-- The outputs a command drives depend on the ports it reads and the ROM alone: no other input, no earlier output, no earlier
cycle and no draw affects them (R20, R71). Of ENCODE's, the image only where the bounds are in order, since it is UNSPEC where they
are not. -/
def Obligations.DrivenOutputsDependOnPortsRead : Prop :=
  ∀ a b : State, a.rom = b.rom →
    (a.inp.wire = b.inp.wire → a.inp.tag = b.inp.tag → ∃ t u, exec .decode a = .next t ∧ exec .decode b = .next u ∧
      t.out.record = u.out.record ∧ t.out.status = u.out.status) ∧
    (a.inp.record = b.inp.record → ∃ t u, exec .encode a = .next t ∧ exec .encode b = .next u ∧
      (a.inp.record.base.toNat ≤ a.inp.record.top.toNat → t.out.wire = u.out.wire) ∧
      t.out.tag = u.out.tag ∧ t.out.status = u.out.status) ∧
    (a.inp.record = b.inp.record → ∃ t u, exec .validate a = .next t ∧ exec .validate b = .next u ∧
      t.out.status = u.out.status) ∧
    (∀ f : BitVec 4, f.toNat < 10 → a.inp.fval = b.inp.fval →
      (∃ t u, exec (.fextract f) a = .next t ∧ exec (.fextract f) b = .next u ∧
        t.out.fval = u.out.fval ∧ t.out.status = u.out.status) ∧
      (∃ t u, exec (.finsert f) a = .next t ∧ exec (.finsert f) b = .next u ∧
        t.out.fval = u.out.fval ∧ t.out.status = u.out.status))

/-! ### Round trips through two evaluations -/

/-- The law of R110, which the spec derives: DECODE, then ENCODE of the record it drove: the same image and tag, with word 0 bits
15..13 cleared when tagged, and RSV in both evaluations exactly when the tagged image has a nonzero reserved field. -/
def Obligations.WireRoundTrip : Prop :=
  ∀ s : State, romBuiltIn s → s.inp.cmd = 0x00#8 →
    ∃ t u, step s = .next t ∧ step t.feedRecord = .next u ∧
      u.out.tag = s.inp.tag ∧
      u.out.wire = (if s.inp.tag then s.inp.wire &&& ~~~0xE000#256 else s.inp.wire) ∧
      t.out.status = statusOf false (s.inp.tag && decide (wordNat s.inp.wire 0 / 2 ^ 56 ≠ 0)) false false false ∧
      u.out.status = t.out.status ∧
      ((s.inp.tag = true → wordNat s.inp.wire 0 / 2 ^ 56 = 0 ∧ wordNat s.inp.wire 0 / 2 ^ 13 % 2 ^ 3 = 0) →
        u.out.wire = s.inp.wire ∧ t.out.status = 0#5 ∧ u.out.status = 0#5)

/-- The law of R111, which the spec derives: ENCODE, then DECODE of the image it drove with its tag: the same record, its top
reduced to the clamped length; the very same record exactly when the length fits. -/
def Obligations.RecordRoundTrip : Prop :=
  ∀ s : State, romBuiltIn s → s.inp.cmd = 0x01#8 → s.inp.record.base.toNat ≤ s.inp.record.top.toNat →
    (s.inp.record.tag = true → s.inp.record.reserved = 0#8 ∧ s.inp.record.perms.toNat < 2 ^ 12) →
    ∃ t u, step s = .next t ∧ step t.feedImage = .next u ∧
      u.out.record = { s.inp.record with top := BitVec.ofNat 65 (s.inp.record.base.toNat + clampedLength s.inp.record) } ∧
      t.out.status = 0#5 ∧ u.out.status = 0#5 ∧
      (u.out.record = s.inp.record ↔ s.inp.record.top.toNat - s.inp.record.base.toNat ≤ 2 ^ 64 - 1)

/-- The law of R120, which the spec derives: VALIDATE agrees with the codec on every record: INV and RSV exactly when ENCODE sets
them, and status 0 exactly when ENCODE then DECODE returns the record unchanged with status 0 in both. -/
def Obligations.ValidateAgreesWithCodec : Prop :=
  ∀ s : State, romBuiltIn s →
    ∃ v t u, step (s.present { s.inp with cmd := 0x04#8 }) = .next v ∧ step (s.present { s.inp with cmd := 0x01#8 }) = .next t ∧
      step t.feedImage = .next u ∧
      (hasBit v.out.status invBit = hasBit t.out.status invBit) ∧
      (hasBit v.out.status rsvBit = hasBit t.out.status rsvBit) ∧
      (v.out.status = 0#5 ↔ u.out.record = s.inp.record ∧ t.out.status = 0#5 ∧ u.out.status = 0#5)

/-! ### The image as words and bytes, and the assembler's lines -/

/-- R46: the four words of an image, index-based, word 0 lowest. -/
def Obligations.ImageIsFourWords : Prop :=
  (∀ (w : Image) (k : Nat), k < 4 → (imageWord w k).toNat = w.toNat / 2 ^ (64 * k) % 2 ^ 64) ∧
  ∀ w0 w1 w2 w3 : Word,
    (imageOfWords w0 w1 w2 w3).toNat = w0.toNat + 2 ^ 64 * w1.toNat + 2 ^ 128 * w2.toNat + 2 ^ 192 * w3.toNat

/-- R47: byte 8k+i of the image in both byte orders; the default order is LE. -/
def Obligations.ImageByteOrder : Prop :=
  Config.params.byteOrder = .le ∧
  ∀ (w : Image) (k i : Nat), k < 4 → i < 8 →
    (imageBytes .le w)[8 * k + i]? = some (BitVec.ofNat 8 (wordNat w k / 2 ^ (8 * i))) ∧
    (imageBytes .be w)[8 * k + i]? = some (BitVec.ofNat 8 (wordNat w k / 2 ^ (56 - 8 * i))) ∧
    (imageBytes .le w).length = 32 ∧ (imageBytes .be w).length = 32

/-- Moving an image to bytes and back gives it again, and every buffer of 32 bytes is the bytes of the image it holds, in both
byte orders. -/
def Obligations.ImageBytesRoundTrip : Prop :=
  (∀ (bo : ByteOrder) (w : Image), imageOfBytes bo (imageBytes bo w) = some w) ∧
  ∀ (bo : ByteOrder) (bs : List Byte), bs.length = 32 → ∃ w, imageOfBytes bo bs = some w ∧ imageBytes bo w = bs

/-- An assembler line presents its command and the ports it lists (R74), and the next step runs that command on them (around it, as
every step at LATENCY 0, `past` is emptied, log 7). -/
def Obligations.AssembledLineRuns : Prop :=
  ∀ (s : State) (l : AsmLine), (lineCommand l).wf = true →
    decodeCommand (s.presentLine l).inp.cmd = .ok (lineCommand l) ∧
    step (s.presentLine l) = mapNext (fun t => { t with past := [] }) (exec (lineCommand l) (s.presentLine l)) ∧
    (∀ w0 w1 w2 w3 t, l = .decode w0 w1 w2 w3 t →
      lineCommand l = .decode ∧ imageWord (s.presentLine l).inp.wire 0 = w0 ∧ imageWord (s.presentLine l).inp.wire 1 = w1 ∧
      imageWord (s.presentLine l).inp.wire 2 = w2 ∧ imageWord (s.presentLine l).inp.wire 3 = w3 ∧ (s.presentLine l).inp.tag = t) ∧
    (∀ r, l = .encode r → lineCommand l = .encode ∧ (s.presentLine l).inp.record = r) ∧
    (∀ f v, l = .fextract f v → lineCommand l = .fextract f ∧ (s.presentLine l).inp.fval = v) ∧
    (∀ f v, l = .finsert f v → lineCommand l = .finsert f ∧ (s.presentLine l).inp.fval = v) ∧
    (∀ r, l = .validate r → lineCommand l = .validate ∧ (s.presentLine l).inp.record = r)

/-- R75: the pseudo-operations: each is the evaluation of its expansion, with the result the rule names. -/
def Obligations.PseudoOperations : Prop :=
  ∀ s : State, romBuiltIn s →
    (s.presentLine .nullcap = s.presentLine (.decode 0#64 0#64 0#64 0#64 false) ∧
      ∃ t, step (s.presentLine .nullcap) = .next t ∧ t.out.status = 0#5 ∧
        t.out.record = { base := 0#64, top := BitVec.ofNat 65 (2 ^ 64 - 1), cursor := 0#64, perms := 0#15, uperms := 0#16,
                         otype := 0xFFFFFF#24, flags := 0#1, reserved := 0#8, tag := false }) ∧
    ∀ v : Word,
      (s.presentLine (.getotype v) = s.presentLine (.fextract 4#4 v) ∧
        ∃ t, step (s.presentLine (.getotype v)) = .next t ∧
          t.out.fval.toNat = v.toNat / 2 ^ 32 % 2 ^ 24 ∧ t.out.status = 0#5) ∧
      (s.presentLine (.getperms v) = s.presentLine (.fextract 9#4 v) ∧
        ∃ t, step (s.presentLine (.getperms v)) = .next t ∧
          t.out.fval.toNat = v.toNat / 2 % 2 ^ 15 ∧ t.out.status = 0#5)
end

