-- ==== Sys2Proof/Laws/State.lean ====
section
/-!
SUPPORT. One lemma for each field under each update of the state, so that no later proof unfolds a record update.
-/

namespace Sys2Proof.Machine

@[simp] theorem drive_inp (s : State) (o : Outputs) : (drive s o).inp = s.inp := rfl
@[simp] theorem drive_out (s : State) (o : Outputs) : (drive s o).out = o := rfl
@[simp] theorem drive_rom (s : State) (o : Outputs) : (drive s o).rom = s.rom := rfl
@[simp] theorem drive_past (s : State) (o : Outputs) : (drive s o).past = s.past := rfl
@[simp] theorem drive_draws (s : State) (o : Outputs) : (drive s o).draws = s.draws + 1 := rfl

@[simp] theorem closeCycle_inp (n : Nat) (s : State) : (closeCycle n s).inp = s.inp := rfl
@[simp] theorem closeCycle_out (n : Nat) (s : State) : (closeCycle n s).out = s.out := rfl
@[simp] theorem closeCycle_rom (n : Nat) (s : State) : (closeCycle n s).rom = s.rom := rfl
@[simp] theorem closeCycle_past (n : Nat) (s : State) : (closeCycle n s).past = (s.inp :: s.past).take n := rfl
@[simp] theorem closeCycle_draws (n : Nat) (s : State) : (closeCycle n s).draws = s.draws := rfl

@[simp] theorem reportIllegal_inp (s : State) : (reportIllegal s).inp = s.inp := rfl
@[simp] theorem reportIllegal_rom (s : State) : (reportIllegal s).rom = s.rom := rfl
@[simp] theorem reportIllegal_past (s : State) : (reportIllegal s).past = s.past := rfl
@[simp] theorem reportIllegal_draws (s : State) : (reportIllegal s).draws = s.draws + 1 := rfl
@[simp] theorem reportIllegal_status (s : State) : (reportIllegal s).out.status = illBit := rfl

@[simp] theorem reportUnstable_inp (s : State) : (reportUnstable s).inp = s.inp := rfl
@[simp] theorem reportUnstable_rom (s : State) : (reportUnstable s).rom = s.rom := rfl
@[simp] theorem reportUnstable_past (s : State) : (reportUnstable s).past = s.past := rfl
@[simp] theorem reportUnstable_draws (s : State) : (reportUnstable s).draws = s.draws + 1 := rfl
@[simp] theorem reportUnstable_out (s : State) :
    (reportUnstable s).out = Config.unspecUnstable s.draws (s.inp :: s.past) := rfl

@[simp] theorem present_inp (s : State) (i : Inputs) : (s.present i).inp = i := rfl
@[simp] theorem present_out (s : State) (i : Inputs) :
    (s.present i).out = Config.unspecUnstable s.draws (i :: s.inp :: s.past) := rfl
@[simp] theorem present_rom (s : State) (i : Inputs) : (s.present i).rom = s.rom := rfl
@[simp] theorem present_past (s : State) (i : Inputs) : (s.present i).past = s.past := rfl
@[simp] theorem present_draws (s : State) (i : Inputs) : (s.present i).draws = s.draws + 1 := rfl

@[simp] theorem feedImage_inp (s : State) :
    s.feedImage.inp = { s.inp with cmd := encode .decode, wire := s.out.wire, tag := s.out.tag } := rfl
@[simp] theorem feedImage_rom (s : State) : s.feedImage.rom = s.rom := rfl
@[simp] theorem feedRecord_inp (s : State) :
    s.feedRecord.inp = { s.inp with cmd := encode .encode, record := s.out.record } := rfl
@[simp] theorem feedRecord_rom (s : State) : s.feedRecord.rom = s.rom := rfl
@[simp] theorem presentLine_inp (s : State) (l : AsmLine) : (s.presentLine l).inp = lineInputs l s.inp := rfl
@[simp] theorem presentLine_rom (s : State) (l : AsmLine) : (s.presentLine l).rom = s.rom := rfl

@[simp] theorem withFetchWord_inp (s : State) (nbits w : Nat) :
    (s.withFetchWord nbits w).inp = { s.inp with cmd := BitVec.ofNat 8 (w % 2 ^ nbits) } := rfl
@[simp] theorem withFetchWord_out (s : State) (nbits w : Nat) :
    (s.withFetchWord nbits w).out =
      Config.unspecUnstable s.draws ({ s.inp with cmd := BitVec.ofNat 8 (w % 2 ^ nbits) } :: s.inp :: s.past) := rfl
@[simp] theorem withFetchWord_rom (s : State) (nbits w : Nat) : (s.withFetchWord nbits w).rom = s.rom := rfl
@[simp] theorem withFetchWord_past (s : State) (nbits w : Nat) : (s.withFetchWord nbits w).past = s.past := rfl
@[simp] theorem withFetchWord_draws (s : State) (nbits w : Nat) : (s.withFetchWord nbits w).draws = s.draws + 1 := rfl

@[simp] theorem reset_rom : State.reset.rom = rom256 := rfl
@[simp] theorem reset_past : State.reset.past = [] := rfl

@[simp] theorem mapNext_next (f : State → State) (s : State) :
    mapNext f (.next s) = .next (f s) := rfl

end Sys2Proof.Machine
end

