-- ==== Sys2Proof/Laws/Ops.lean ====
section
/-!
SUPPORT. What each shared operation can do, said once: the command and the cycle as cases, the data operations as arithmetic of natural
numbers. Later proofs cite these and unfold nothing.
-/

namespace Sys2Proof.Machine

/-! ### The cycle -/

/-- A command word either decodes, and its evaluation is that command's meaning, or is illegal and reports ILL. -/
theorem respond_cases (s : State) :
    (∃ i, decodeCommand s.inp.cmd = .ok i ∧ respond s = exec i s) ∨
      (∃ e, decodeCommand s.inp.cmd = .error e ∧ respond s = .next (reportIllegal s)) := by
  unfold respond
  cases h : decodeCommand s.inp.cmd with
  | ok i => exact .inl ⟨i, rfl, rfl⟩
  | error e => exact .inr ⟨e, rfl, rfl⟩

theorem respond_ok {s : State} {i : Instr} (h : decodeCommand s.inp.cmd = .ok i) : respond s = exec i s := by
  simp [respond, h]

theorem respond_error {s : State} {e : DecodeError} (h : decodeCommand s.inp.cmd = .error e) :
    respond s = .next (reportIllegal s) := by
  simp [respond, h]

theorem exec_decode (s : State) :
    exec .decode s = .next (drive s { undriven s with
      record := decodedRecord s.inp.wire s.inp.tag
      status := decodeStatus s.inp.tag (imageWord s.inp.wire 0) }) := rfl

theorem exec_encode (s : State) :
    exec .encode s = .next (drive s { undriven s with
      wire := if boundsInverted s.inp.record then (undriven s).wire else encodedImage s.rom s.inp.record
      tag := s.inp.record.tag
      status := encodeStatus s.inp.record }) := rfl

theorem exec_validate (s : State) :
    exec .validate s = .next (drive s { undriven s with status := validateStatus s.inp.record }) := rfl

/-- A legal selector names an entry of any ROM. -/
theorem romSelect_of_lt (rom : Rom) {f : BitVec 4} (hf : f.toNat < 10) : ∃ e, romSelect rom f = some e := by
  have h : f = 0#4 ∨ f = 1#4 ∨ f = 2#4 ∨ f = 3#4 ∨ f = 4#4 ∨ f = 5#4 ∨ f = 6#4 ∨ f = 7#4 ∨ f = 8#4 ∨ f = 9#4 := by
    revert f
    decide
  rcases h with rfl | rfl | rfl | rfl | rfl | rfl | rfl | rfl | rfl | rfl <;> exact ⟨_, rfl⟩

theorem exec_fextract {s : State} {f : BitVec 4} {e : RomEntry} (h : romSelect s.rom f = some e) :
    exec (.fextract f) s = .next (drive s { undriven s with fval := extractField e s.inp.fval, status := 0#5 }) := by
  simp [exec, execFextract, h]

theorem exec_finsert {s : State} {f : BitVec 4} {e : RomEntry} (h : romSelect s.rom f = some e) :
    exec (.finsert f) s = .next (drive s { undriven s with fval := encodeField e s.inp.fval, status := 0#5 }) := by
  simp [exec, execFinsert, h]

/-- Whatever a command does, it does by driving the output ports once. -/
theorem exec_drives (i : Instr) (s : State) : ∃ o, exec i s = .next (drive s o) := by
  cases i with
  | decode => exact ⟨_, rfl⟩
  | encode => exact ⟨_, rfl⟩
  | fextract f =>
    simp only [exec, execFextract]
    split
    · exact ⟨_, rfl⟩
    · exact ⟨_, rfl⟩
  | finsert f =>
    simp only [exec, execFinsert]
    split
    · exact ⟨_, rfl⟩
    · exact ⟨_, rfl⟩
  | validate => exact ⟨_, rfl⟩

/-- Whatever the evaluation of the present command does, it does by driving the output ports once. -/
theorem respond_drives (s : State) : ∃ o, respond s = .next (drive s o) := by
  obtain ⟨i, -, h⟩ | ⟨e, -, h⟩ := respond_cases s
  · obtain ⟨o, ho⟩ := exec_drives i s
    exact ⟨o, h.trans ho⟩
  · exact ⟨_, h⟩

/-- A cycle of the 256-bit variant either drives the evaluation's outputs or, where the inputs were not held, every output
UNSPEC. -/
theorem evaluateCycle_256 {p : Params} (hp : p.capVariant = .cap256) (s : State) :
    evaluateCycle p s =
      mapNext (closeCycle p.latency) (if inputsHeld p.latency s then respond s else .next (reportUnstable s)) := by
  simp [evaluateCycle, hp]

theorem evaluateCycle_held {p : Params} (hp : p.capVariant = .cap256) {s : State} (h : inputsHeld p.latency s = true) :
    evaluateCycle p s = mapNext (closeCycle p.latency) (respond s) := by
  simp [evaluateCycle_256 hp, h]

theorem evaluateCycle_unheld {p : Params} (hp : p.capVariant = .cap256) {s : State} (h : inputsHeld p.latency s = false) :
    evaluateCycle p s = .next (closeCycle p.latency (reportUnstable s)) := by
  simp [evaluateCycle_256 hp, h]

/-- Everything a cycle can answer as a next state. -/
theorem evaluateCycle_next {p : Params} {s t : State} (h : evaluateCycle p s = .next t) :
    p.capVariant = .cap256 ∧ ∃ o, t = closeCycle p.latency (drive s o) := by
  have hp : p.capVariant = .cap256 := by
    cases hv : p.capVariant with
    | cap256 => rfl
    | cap128 => simp [evaluateCycle, hv] at h
    | cap64 => simp [evaluateCycle, hv] at h
  refine ⟨hp, ?_⟩
  cases hh : inputsHeld p.latency s with
  | true =>
    obtain ⟨o, ho⟩ := respond_drives s
    rw [evaluateCycle_held hp hh, ho] at h
    exact ⟨o, by simpa using h.symm⟩
  | false =>
    rw [evaluateCycle_unheld hp hh] at h
    exact ⟨_, by simpa [reportUnstable] using h.symm⟩

/-- With LATENCY 0 every cycle's inputs count as held. -/
@[simp] theorem inputsHeld_zero (s : State) : inputsHeld 0 s = true := by simp [inputsHeld]

/-- A step is the evaluation of the present command, closed at LATENCY 0. -/
theorem step_eq (s : State) : step s = mapNext (closeCycle 0) (respond s) :=
  evaluateCycle_held rfl (inputsHeld_zero s)

theorem closeCycle_zero (s : State) : closeCycle 0 s = { s with past := [] } := rfl

/-- Two cycles present the same when the read ports' views are equal. -/
theorem samePresented_iff (a b : Inputs) :
    samePresented a b = true ↔ inputsRead (decodeCommand a.cmd) a = inputsRead (decodeCommand a.cmd) b := by
  simp [samePresented]

@[simp] theorem samePresented_self (a : Inputs) : samePresented a a = true := by simp [samePresented]

/-! ### Arithmetic of the data path -/

theorem imageWord_toNat (w : Image) (k : Nat) : (imageWord w k).toNat = w.toNat / 2 ^ (64 * k) % 2 ^ 64 := by
  simp [imageWord, BitVec.extractLsb'_toNat, Nat.shiftRight_eq_div_pow]

/-- Bit j of an image of four words. -/
theorem imageOfWords_getLsbD (w0 w1 w2 w3 : Word) (j : Nat) :
    (imageOfWords w0 w1 w2 w3).getLsbD j =
      if j < 64 then w0.getLsbD j
      else if j < 128 then w1.getLsbD (j - 64)
      else if j < 192 then w2.getLsbD (j - 128)
      else w3.getLsbD (j - 192) := by
  change @BitVec.getLsbD (64 + 64 + 64 + 64) (w3 ++ w2 ++ w1 ++ w0) j = _
  simp only [BitVec.getLsbD_append]
  by_cases h0 : j < 64
  · simp [h0]
  by_cases h1 : j < 128
  · simp [h0, h1, show j - 64 < 64 by omega]
  by_cases h2 : j < 192
  · simp [h0, h1, h2, show ¬ j - 64 < 64 by omega, show j - 64 - 64 = j - 128 by omega, show j - 128 < 64 by omega]
  · simp [h0, h1, h2, show ¬ j - 64 < 64 by omega, show ¬ j - 64 - 64 < 64 by omega,
      show j - 64 - 64 - 64 = j - 192 by omega]

@[simp] theorem imageWord_imageOfWords_zero (w0 w1 w2 w3 : Word) : imageWord (imageOfWords w0 w1 w2 w3) 0 = w0 := by
  apply BitVec.eq_of_getLsbD_eq
  intro i hi
  simp [imageWord, imageOfWords_getLsbD, hi]

@[simp] theorem imageWord_imageOfWords_one (w0 w1 w2 w3 : Word) : imageWord (imageOfWords w0 w1 w2 w3) 1 = w1 := by
  apply BitVec.eq_of_getLsbD_eq
  intro i hi
  simp [imageWord, imageOfWords_getLsbD, hi, show 64 + i < 128 by omega]

@[simp] theorem imageWord_imageOfWords_two (w0 w1 w2 w3 : Word) : imageWord (imageOfWords w0 w1 w2 w3) 2 = w2 := by
  apply BitVec.eq_of_getLsbD_eq
  intro i hi
  simp [imageWord, imageOfWords_getLsbD, hi, show ¬ 128 + i < 64 by omega, show 128 + i < 192 by omega]

@[simp] theorem imageWord_imageOfWords_three (w0 w1 w2 w3 : Word) : imageWord (imageOfWords w0 w1 w2 w3) 3 = w3 := by
  apply BitVec.eq_of_getLsbD_eq
  intro i hi
  simp [imageWord, imageOfWords_getLsbD, hi, show ¬ 192 + i < 64 by omega, show ¬ 192 + i < 128 by omega]

/-- The sum of a base and a length never leaves the 65-bit port. -/
@[simp] theorem decodedTop_toNat (base length : Word) : (decodedTop base length).toNat = base.toNat + length.toNat := by
  have hb := base.isLt
  have hl := length.isLt
  simp only [decodedTop, BitVec.toNat_ofNat]
  omega

/-- The clamped length fits 64 bits. -/
@[simp] theorem saturatedLength_toNat (r : Record) :
    (saturatedLength r).toNat = min (r.top.toNat - r.base.toNat) (2 ^ 64 - 1) := by
  simp only [saturatedLength, lenMax, BitVec.toNat_ofNat]
  omega

theorem allOnes64_eq : allOnes64 = BitVec.allOnes 64 := by decide

theorem unsealedSentinel_eq : unsealedSentinel = BitVec.allOnes 24 := by decide

/-- The length XOR all-ones is the complement. -/
theorem lengthXor_eq_not (w : Word) : lengthXor w = ~~~w := by
  rw [lengthXor, allOnes64_eq, BitVec.xor_allOnes]

/-- The object type XOR the sentinel is the complement. -/
theorem otypeXor_eq_not (v : BitVec 24) : otypeXor v = ~~~v := by
  rw [otypeXor, unsealedSentinel_eq, BitVec.xor_allOnes]

@[simp] theorem permMask_true : permMask true = 0xFFF#15 := rfl
@[simp] theorem permMask_false : permMask false = 0x7FFF#15 := rfl

end Sys2Proof.Machine
end

