-- ==== Sys2Proof/Laws/PerInstr.lean ====
section
/-!
SUPPORT. The families of statements made per instruction. `RowMatch`: the encoding of a command matches its row of
spec/opcode_table.json under the row's mask (spec/30_encoding.md R69).
-/

namespace Sys2Proof.Laws

/-- The `mask` of a command's row in spec/opcode_table.json. -/
def rowMask : Instr → Command
  | .decode => 0xFF#8
  | .encode => 0xFF#8
  | .fextract _ => 0x87#8
  | .finsert _ => 0x87#8
  | .validate => 0xFF#8

/-- The `match` of a command's row in spec/opcode_table.json. -/
def rowMatch : Instr → Command
  | .decode => 0x00#8
  | .encode => 0x01#8
  | .fextract _ => 0x02#8
  | .finsert _ => 0x03#8
  | .validate => 0x04#8

/-- The encoded word of a command matches its row. -/
def RowMatch.Statement (i : Instr) : Prop := encode i &&& rowMask i = rowMatch i

theorem RowMatch.decode : RowMatch.Statement .decode := by
  unfold RowMatch.Statement
  decide

theorem RowMatch.encode : RowMatch.Statement .encode := by
  unfold RowMatch.Statement
  decide

theorem RowMatch.fextract (fsel : BitVec 4) : RowMatch.Statement (.fextract fsel) := by
  revert fsel
  unfold RowMatch.Statement
  decide

theorem RowMatch.finsert (fsel : BitVec 4) : RowMatch.Statement (.finsert fsel) := by
  revert fsel
  unfold RowMatch.Statement
  decide

theorem RowMatch.validate : RowMatch.Statement .validate := by
  unfold RowMatch.Statement
  decide

end Sys2Proof.Laws
end

