-- ==== Sys2Proof/Tests/Slice0.lean ====
section
/-!
SUPPORT. Tests of the model against values written out from the spec, and for every statement with hypotheses a witness that meets
them. Expected results come from spec/95_test_vectors.md (the vector's id stands in the comment) or from the rule named.
-/

namespace Sys2Proof.Tests

open Sys2Proof.Machine Sys2Proof.Claims

/-- A next state that passes a check. -/
def nextIs (o : Host.Outcome State Fault Refusal) (check : State → Bool) : Bool :=
  match o with
  | .next t => check t
  | .fault _ => false
  | .refused _ => false

/-- The reset state with these inputs on the ports. -/
def withInputs (i : Inputs) : State := { State.reset with inp := i }

/-- The reset state with an image, a tag and the command DECODE. -/
def decodeState (w0 w1 w2 w3 : Word) (t : Bool) : State :=
  withInputs { zeroInputs with cmd := 0x00#8, wire := imageOfWords w0 w1 w2 w3, tag := t }

/-- The reset state with a record and a command. -/
def recordState (cmd : Command) (r : Record) : State := withInputs { zeroInputs with cmd := cmd, record := r }

/-- The reset state with a value on `fval` and a command. -/
def fieldState (cmd : Command) (v : Word) : State := withInputs { zeroInputs with cmd := cmd, fval := v }

/-- The record of L2-ENC-11. -/
def recordENC11 : Record :=
  { base := 0x40#64, top := 0x80#65, cursor := 0x1000#64, perms := 0#15, uperms := 0xBEEF#16, otype := 0x123#24, flags := 1#1
    reserved := 0xAA#8, tag := false }

/-- The record of L2-ENC-6. -/
def recordENC6 : Record :=
  { zeroRecord with base := 0xFFFFFFFFFFFFFFFF#64, top := 0x1FFFFFFFFFFFFFFFF#65, otype := 0xFFFFFF#24 }

/-- The record of L2-VAL-7. -/
def recordVAL7 : Record :=
  { zeroRecord with top := 0x10000000000000000#65, perms := 0x1000#15, reserved := 0xAA#8, tag := true }

/-- The record of the document's concrete scenario, L1-4 and P1. -/
def recordP1 : Record :=
  { base := 0x1000#64, top := 0x2000#65, cursor := 0x1800#64, perms := 0xFFF#15, uperms := 0#16, otype := 0xFFFFFF#24, flags := 0#1
    reserved := 0#8, tag := true }

/-! ### Well-formedness -/

/-- R67: selector 10 is reserved. -/
theorem test_wf_refuses_fextract_10 : (Instr.fextract 10#4).wf = false := by decide

/-- R67: selector 15 is reserved. -/
theorem test_wf_refuses_finsert_15 : (Instr.finsert 15#4).wf = false := by decide

/-! ### Decoding, words written out from R65 and R66: cmd[7], fsel, op -/

theorem test_decode_word_decode : decodeCommand (0b0#1 ++ 0b0000#4 ++ 0b000#3) = .ok .decode := by decide

theorem test_decode_word_encode : decodeCommand (0b0#1 ++ 0b0000#4 ++ 0b001#3) = .ok .encode := by decide

theorem test_decode_word_fextract_reserved : decodeCommand (0b0#1 ++ 0b0101#4 ++ 0b010#3) = .ok (.fextract 5#4) := by decide

theorem test_decode_word_finsert_base : decodeCommand (0b0#1 ++ 0b0111#4 ++ 0b011#3) = .ok (.finsert 7#4) := by decide

theorem test_decode_word_validate : decodeCommand (0b0#1 ++ 0b0000#4 ++ 0b100#3) = .ok .validate := by decide

/-- L2-ILL-1, 4, 7 and 10, by the ground R70 gives each. -/
theorem test_decode_rejects_by_name :
    decodeCommand 0x05#8 = .error .reservedOperation ∧ decodeCommand 0x08#8 = .error .selectorNotZero ∧
      decodeCommand 0x52#8 = .error .reservedSelector ∧ decodeCommand 0x82#8 = .error .reservedBitSet := by decide

/-! ### One evaluation of each command -/

/-- L2-DEC-8. -/
theorem test_step_decode_untagged :
    nextIs (step (decodeState 0x0123456789ABCDEF#64 0x1111#64 0x2222#64 0x3333#64 false)) (fun t =>
      t.out.record == { base := 0x2222#64, top := 0xFFFFFFFFFFFFEEEE#65, cursor := 0x1111#64, perms := 0x66F7#15,
                        uperms := 0x89AB#16, otype := 0xDCBA98#24, flags := 1#1, reserved := 0x01#8, tag := false } &&
      t.out.status == 0#5) = true := by decide

/-- L2-DEC-11: as L2-DEC-8 but perms 0x06F7, tag 1, status RSV. -/
theorem test_step_decode_tagged_reserved :
    nextIs (step (decodeState 0x0123456789ABCDEF#64 0x1111#64 0x2222#64 0x3333#64 true)) (fun t =>
      t.out.record.perms == 0x06F7#15 && t.out.record.reserved == 0x01#8 && t.out.record.tag && t.out.status == 0x02#5) =
        true := by decide

/-- L2-ENC-11. -/
theorem test_step_encode_fields :
    nextIs (step (recordState 0x01#8 recordENC11)) (fun t =>
      t.out.wire == imageOfWords 0xAAFFFEDCBEEF0001#64 0x1000#64 0x40#64 0xFFFFFFFFFFFFFFBF#64 && !t.out.tag &&
      t.out.status == 0#5) = true := by decide

/-- L2-ENC-6: the length saturates and no status says so. -/
theorem test_step_encode_saturates :
    nextIs (step (recordState 0x01#8 recordENC6)) (fun t =>
      t.out.wire == imageOfWords 0#64 0#64 0xFFFFFFFFFFFFFFFF#64 0#64 && t.out.status == 0#5) = true := by decide

/-- L2-FX-4: the stored form, not XORed. -/
theorem test_step_fextract_otype :
    nextIs (step (fieldState 0x22#8 0x0123456789ABCDEF#64)) (fun t => t.out.fval == 0x234567#64 && t.out.status == 0#5) =
      true := by decide

/-- L2-FX-9. -/
theorem test_step_fextract_perms_all :
    nextIs (step (fieldState 0x4A#8 0x0123456789ABCDEF#64)) (fun t => t.out.fval == 0x66F7#64) = true := by decide

/-- L2-FI-11: truncated to 3 bits. -/
theorem test_step_finsert_truncates :
    nextIs (step (fieldState 0x13#8 0xF#64)) (fun t => t.out.fval == 0xE000#64 && t.out.status == 0#5) = true := by decide

/-- L2-FI-6: size 64. -/
theorem test_step_finsert_cursor :
    nextIs (step (fieldState 0x33#8 0xFFFFFFFFFFFFFFFF#64)) (fun t => t.out.fval == 0xFFFFFFFFFFFFFFFF#64) = true := by decide

/-- L2-VAL-7: RSV, PDROP and SAT together. -/
theorem test_step_validate_three_bits :
    nextIs (step (recordState 0x04#8 recordVAL7)) (fun t => t.out.status == 0x1A#5 && noFaultStatus t) = true := by decide

/-- L2-VAL-5: RSV and INV together. -/
theorem test_step_validate_inverted :
    nextIs (step (recordState 0x04#8 { zeroRecord with base := 0x2000#64, top := 0x1000#65, reserved := 1#8, tag := true }))
      (fun t => t.out.status == 0x06#5) = true := by decide

/-- L2-ILL-7: FEXTRACT with fsel 10 is ILL, a fault of that evaluation (R133). -/
theorem test_step_illegal :
    nextIs (step (fieldState 0x52#8 0x1#64)) (fun t => t.out.status == 0x01#5 && statusFaults t == [.illegalCommand]) = true := by
  decide

/-- L2-ENC-8: RSV and INV of ENCODE are faults (R133); the tag is still the record's. -/
theorem test_encode_faults :
    nextIs (step (recordState 0x01#8 { zeroRecord with base := 0x2000#64, top := 0x1000#65, reserved := 1#8, tag := true }))
      (fun t => t.out.status == 0x06#5 && t.out.tag && statusFaults t == [.reservedBits, .invertedBounds]) = true := by decide

/-! ### Around the commands -/

/-- L1-1: the outputs at reset are those of the command on the ports, DECODE of the zero image with tag 0 (R141). -/
theorem test_reset_outputs :
    State.reset.out.record = decodedRecord 0#256 false ∧ State.reset.out.status = 0#5 := by decide

/-- R47: byte 0 of word 0 is its lowest byte in order LE, its highest in order BE. -/
theorem test_image_byte_order :
    imageByte .le (imageOfWords 0x0123456789ABCDEF#64 0#64 0#64 0#64) 0 = 0xEF#8 ∧
      imageByte .be (imageOfWords 0x0123456789ABCDEF#64 0#64 0#64 0#64) 0 = 0x01#8 := by decide

/-- R30: the edges of the classes. -/
theorem test_otype_class_edges :
    otypeClass 0xFFFFFF#24 = .unsealed ∧ otypeClass 0xFFFFFE#24 = .sentry ∧ otypeClass 0xFFFFFD#24 = .reservedSentinel ∧
      otypeClass 0xFFFFF0#24 = .reservedSentinel ∧ otypeClass 0xFFFFEF#24 = .sealed ∧ otypeClass 0#24 = .sealed := by decide

/-- R78: a layout with a field that crosses a word is not built; R83: nor is one that leaves a bit uncovered. -/
theorem test_bad_layouts_not_built :
    buildRom (declared256.set 6 { name := .cursor, last := 127, start := 63 }) = none ∧
      buildRom (declared256.set 2 { name := .resperms, last := 14, start := 13 }) = none := by decide

/-- P1, lines 2 and 3, through the host's feedback (R150): ENCODE of the document's scenario, then DECODE of its image. -/
theorem test_feedback_round_trip :
    nextIs (step (recordState 0x01#8 recordP1)) (fun t =>
      t.out.wire == imageOfWords 0x1FFE#64 0x1800#64 0x1000#64 0xFFFFFFFFFFFFEFFF#64 &&
      nextIs (step t.feedImage) (fun u => u.out.record == recordP1)) = true := by decide

/-! ### Witnesses: concrete states and operands that meet the hypotheses of each statement -/

/-- DecodeOfEncodedCommand, FetchWordPlacesCommand: the last legal selector. -/
theorem witness_wellformed : (Instr.fextract 9#4).wf = true ∧ (Instr.finsert 9#4).wf = true ∧ Instr.decode.wf = true ∧
    Instr.encode.wf = true ∧ Instr.validate.wf = true := by decide

/-- EncodeOfDecodedCommand, StepRunsDecodedCommand. -/
theorem witness_decoded : decodeCommand (fieldState 0x4B#8 1#64).inp.cmd = .ok (.finsert 9#4) := by decide

/-- IllegalCommandReportsIll: each ground of R70 at its edge, and the nearest legal neighbours that meet none. -/
theorem witness_illegal : illegalWord (fieldState 0x80#8 0#64).inp.cmd ∧ illegalWord 0x05#8 ∧ illegalWord 0x06#8 ∧
    illegalWord 0x07#8 ∧ illegalWord 0x08#8 ∧ illegalWord 0x09#8 ∧ illegalWord 0x0C#8 ∧ illegalWord 0x52#8 ∧ illegalWord 0x53#8 ∧
    ¬ illegalWord 0x00#8 ∧ ¬ illegalWord 0x04#8 ∧ ¬ illegalWord 0x4A#8 ∧ ¬ illegalWord 0x4B#8 := by
  refine ⟨?_, ?_, ?_, ?_, ?_, ?_, ?_, ?_, ?_, ?_, ?_, ?_, ?_⟩ <;> decide

/-- EveryEvaluationCompletes, OtherVariantsRefused: one parameter set for each variant. -/
theorem witness_variants : Config.params.capVariant = .cap256 ∧
    ({ Config.params with capVariant := .cap64 } : Params).capVariant = .cap64 ∧
    ({ Config.params with capVariant := .cap128 } : Params).capVariant = .cap128 := by decide

/-- CycleKeepsRomAndInputs: a cycle at reset answers a next state, held or not. -/
theorem witness_cycle_next : (∃ t, evaluateCycle Config.params State.reset = .next t) ∧
    (∃ t, evaluateCycle { Config.params with latency := 1 } State.reset = .next t) := ⟨⟨_, rfl⟩, ⟨_, rfl⟩⟩

/-- PresentingInvalidatesOutputs: the clause on a loaded image, a buffer of 32 bytes. -/
theorem witness_load :
    ∃ t, State.loadImage Config.params (List.replicate 32 0xA5#8) true State.reset = some t := ⟨_, rfl⟩

/-- StepKeepsInvariant. -/
theorem witness_invariant : MachineInv State.reset ∧ ∃ t, step State.reset = .next t := ⟨⟨rfl, by decide, rfl⟩, ⟨_, rfl⟩⟩

/-- HeldInputsEvaluateAfterLatency: LATENCY 2, exactly two cycles held, and LATENCY 0. -/
theorem witness_held : ({ Config.params with latency := 2 } : Params).latency ≤ 2 ∧ Config.params.latency ≤ 0 := by decide

/-- WindowDecidesOutputs, first clause: LATENCY 1, the cycle before presented another command, another `fval` under FINSERT, another
image under DECODE, another record under VALIDATE. -/
theorem witness_window_differs :
    presentedDiffers (fieldState 0x03#8 1#64).inp (fieldState 0x02#8 1#64).inp ∧
    presentedDiffers (fieldState 0x03#8 1#64).inp (fieldState 0x03#8 2#64).inp ∧
    presentedDiffers (decodeState 0 0 0 0 false).inp (decodeState 1 0 0 0 false).inp ∧
    presentedDiffers (recordState 0x04#8 zeroRecord).inp (recordState 0x04#8 { zeroRecord with tag := true }).inp ∧
    ({ fieldState 0x03#8 1#64 with past := [(fieldState 0x03#8 2#64).inp] } : State).past[0]? =
      some (fieldState 0x03#8 2#64).inp := by
  refine ⟨.inl (by decide), .inr (.inr (.inr ⟨⟨0#4, .inr (by decide)⟩, by decide⟩)), .inr (.inl ⟨by decide, .inl (by decide)⟩),
    .inr (.inr (.inl ⟨.inr (by decide), by decide⟩)), rfl⟩

/-- WindowDecidesOutputs, second clause: LATENCY 1, the cycle before presented the same. -/
theorem witness_window_agrees :
    1 ≤ ({ State.reset with past := [State.reset.inp] } : State).past.length ∧
    ∀ k old, k < 1 → ({ State.reset with past := [State.reset.inp] } : State).past[k]? = some old →
      ¬ presentedDiffers State.reset.inp old := by
  refine ⟨by decide, fun k old hk h => ?_⟩
  obtain rfl : k = 0 := by omega
  obtain rfl : State.reset.inp = old := by simpa using h
  rintro (h | ⟨-, h | h⟩ | ⟨-, h⟩ | ⟨-, h⟩) <;> exact h rfl

/-- ResetRomIsTable, FextractResult, FinsertResult: the last legal and the first reserved selector, and the built-in ROM. -/
theorem witness_selectors : romBuiltIn State.reset ∧ (9#4 : BitVec 4).toNat < 10 ∧ 10 ≤ (10#4 : BitVec 4).toNat :=
  ⟨rfl, by decide, by decide⟩

/-- GeneratorDerivesEntries: the widest and the narrowest placement. -/
theorem witness_placements : placementAdmitted { word := 3, start := 0, last := 63 } = true ∧
    placementAdmitted { word := 0, start := 63, last := 63 } = true := by decide

/-- NormalizationAndRefusal: a field of a whole word, one that crosses by a bit, one declared within word 3. -/
theorem witness_normalization : (64 ≤ 127 ∧ 127 ≤ 255 ∧ 127 / 64 = 64 / 64) ∧ (63 ≤ 64 ∧ 64 ≤ 255 ∧ 64 / 64 ≠ 63 / 64) ∧
    (3 < 4 ∧ 0 ≤ 63 ∧ 63 ≤ 63) ∧
    ({ name := .cursor, last := 64, start := 63 } : Declared) ∈ [({ name := .cursor, last := 64, start := 63 } : Declared)] := by
  decide

/-- RelativeFieldPlacement: relative to a field at bit 13, ends 50 and 51 are the last that fits and the first that does not. -/
theorem witness_relative : placementAdmitted { word := 0, start := 13, last := 15 } = true ∧ 0 ≤ 50 ∧ 50 + 13 ≤ 63 ∧
    63 < 51 + 13 := by decide

/-- BuiltLayoutPassesChecks. -/
theorem witness_built : buildRom declared256 = some rom256 := by decide

/-- FieldFunctionsExact, FieldFunctionLaws: the first and the last entry. -/
theorem witness_entries : romSelect rom256 0#4 = some rom256.flags ∧ romSelect rom256 9#4 = some rom256.permsAll := ⟨rfl, rfl⟩

/-- StoredLengthAndNullRecord. -/
theorem witness_null_image : State.reset.inp.wire = 0#256 ∧ State.reset.inp.tag = false := by decide

/-- StatusBitsByCommand: a command word for each clause. -/
theorem witness_status_commands : decodeCommand 0x00#8 = .ok .decode ∧ decodeCommand 0x01#8 = .ok .encode ∧
    decodeCommand 0x02#8 = .ok (.fextract 0#4) ∧ decodeCommand 0x4B#8 = .ok (.finsert 9#4) ∧ decodeCommand 0x04#8 = .ok .validate ∧
    decodeCommand 0xFF#8 = .error .reservedBitSet := by decide

/-- UndrivenOutputsAreFreeDraws: a record one below its base, and an illegal command. -/
theorem witness_inverted : (6#65 : BitVec 65).toNat < (7#64 : Word).toNat ∧
    (recordState 0x01#8 { zeroRecord with base := 7, top := 6 }).inp.record.top = 6#65 ∧
    illegalWord (fieldState 0x05#8 0#64).inp.cmd := by
  refine ⟨by decide, by decide, by decide⟩

/-- EncodeResult: the clause on the image, at equal bounds. -/
theorem witness_ordered : (recordState 0x01#8 { zeroRecord with base := 7, top := 7 }).inp.record.base.toNat ≤
    (recordState 0x01#8 { zeroRecord with base := 7, top := 7 }).inp.record.top.toNat := by decide

/-- DrivenOutputsDependOnPortsRead: two states that differ in outputs, draws and a port not read, with equal bounds. -/
theorem witness_unread_port :
    (decodeState 1 2 3 4 true).rom = ({ decodeState 1 2 3 4 true with draws := 5, inp := { (decodeState 1 2 3 4 true).inp with
      fval := 7#64 } } : State).rom ∧
    (decodeState 1 2 3 4 true).inp.wire = ({ (decodeState 1 2 3 4 true).inp with fval := 7#64 } : Inputs).wire ∧
    (recordState 0x01#8 zeroRecord).inp.record = ({ (recordState 0x01#8 zeroRecord).inp with tag := true } : Inputs).record ∧
    (recordState 0x01#8 zeroRecord).inp.record.base.toNat ≤ (recordState 0x01#8 zeroRecord).inp.record.top.toNat ∧
    (fieldState 0x4A#8 1#64).inp.fval = ({ (fieldState 0x4A#8 1#64).inp with tag := true } : Inputs).fval := by decide

/-- WireRoundTrip: a tagged image with both kinds of reserved bits 0, at DECODE. -/
theorem witness_wire_round_trip : romBuiltIn (decodeState 0x1FFF#64 1 2 3 true) ∧
    (decodeState 0x1FFF#64 1 2 3 true).inp.cmd = 0x00#8 ∧
    wordNat (decodeState 0x1FFF#64 1 2 3 true).inp.wire 0 / 2 ^ 56 = 0 ∧
    wordNat (decodeState 0x1FFF#64 1 2 3 true).inp.wire 0 / 2 ^ 13 % 2 ^ 3 = 0 := ⟨rfl, by decide, by decide, by decide⟩

/-- RecordRoundTrip: a tagged record of length 0 with every hardware permission, at ENCODE. -/
theorem witness_record_round_trip :
    romBuiltIn (recordState 0x01#8 { zeroRecord with base := 7, top := 7, perms := 0xFFF#15, tag := true }) ∧
    (recordState 0x01#8 zeroRecord).inp.cmd = 0x01#8 ∧
    (7#64 : Word).toNat ≤ (7#65 : BitVec 65).toNat ∧ zeroRecord.reserved = 0#8 ∧ (0xFFF#15 : BitVec 15).toNat < 2 ^ 12 :=
  ⟨rfl, by decide, by decide, by decide, by decide⟩

/-- EncodeResult, ValidateAgreesWithCodec, PseudoOperations: the ROM of any state the host reaches from reset. -/
theorem witness_rom_presented : romBuiltIn (State.reset.presentLine .nullcap) := rfl

/-- ImageIsFourWords, ImageByteOrder: the last word and its last byte. -/
theorem witness_last_byte : 3 < 4 ∧ 7 < 8 := by decide

/-- ImageBytesRoundTrip: a buffer of 32 bytes. -/
theorem witness_buffer : (List.replicate 32 0xA5#8 : List Byte).length = 32 := by decide

/-- AssembledLineRuns: one line for each clause. -/
theorem witness_lines : (lineCommand (.decode 1 2 3 4 true)).wf = true ∧ (lineCommand (.encode zeroRecord)).wf = true ∧
    (lineCommand (.fextract 9#4 1)).wf = true ∧ (lineCommand (.finsert 9#4 1)).wf = true ∧
    (lineCommand (.validate zeroRecord)).wf = true := by decide

end Sys2Proof.Tests
end

/-!
PROOFS of the family 00_scope: the scope of the block (spec/00_scope.md). First the facts the statements need about the command word
and about the outputs of the two field operations, then one theorem for each statement.
-/

namespace Sys2Proof

/-! ### The command word as a number -/

@[simp] theorem commandOp_toNat (c : Command) : (commandOp c).toNat = c.toNat % 8 := by
  simp [commandOp, BitVec.extractLsb'_toNat]

@[simp] theorem commandSelector_toNat (c : Command) : (commandSelector c).toNat = c.toNat / 8 % 16 := by
  simp [commandSelector, BitVec.extractLsb'_toNat, Nat.shiftRight_eq_div_pow]

theorem commandReserved_eq_one_iff (c : Command) : commandReserved c = 1#1 ↔ c.toNat / 128 = 1 := by
  have hc := c.isLt
  have hbit : (commandReserved c).toNat = c.toNat / 128 % 2 := by
    simp [commandReserved, BitVec.extractLsb'_toNat, Nat.shiftRight_eq_div_pow]
  rw [← BitVec.toNat_inj, hbit]
  simp only [BitVec.toNat_ofNat]
  omega

theorem plainCommand_error_iff (f : BitVec 4) (i : Instr) :
    (∃ e, plainCommand f i = .error e) ↔ f.toNat ≠ 0 := by
  by_cases hf : f = 0#4
  · simp [plainCommand, hf]
  · have hn : f.toNat ≠ 0 := fun h => hf (BitVec.eq_of_toNat_eq h)
    simp [plainCommand, hf, hn]

theorem fieldCommand_error_iff (f : BitVec 4) (i : Instr) :
    (∃ e, fieldCommand f i = .error e) ↔ 10 ≤ f.toNat := by
  by_cases hf : f.toNat < 10
  · simp [fieldCommand, selectorLegal, hf]
  · simp [fieldCommand, selectorLegal, hf, Nat.le_of_not_lt hf]

/-- The decoder rejects exactly the words R70 calls illegal: one case for the reserved bit, then one for each value of `op`. -/
theorem decodeCommand_error_iff (c : Command) :
    (∃ e, decodeCommand c = .error e) ↔ Claims.illegalWord c := by
  by_cases hr : commandReserved c = 1#1
  · have h7 := (commandReserved_eq_one_iff c).mp hr
    simp [decodeCommand, hr, Claims.illegalWord, h7]
  have h7 : c.toNat / 128 ≠ 1 := fun h => hr ((commandReserved_eq_one_iff c).mpr h)
  have hop : c.toNat % 8 < 8 := Nat.mod_lt _ (by decide)
  simp only [decodeCommand, hr, if_false, commandOp_toNat, Claims.illegalWord, h7, false_or]
  generalize c.toNat % 8 = op at hop
  match op, hop with
  | 0, _ => simp [plainCommand_error_iff]
  | 1, _ => simp [plainCommand_error_iff]
  | 2, _ => simp [fieldCommand_error_iff]
  | 3, _ => simp [fieldCommand_error_iff]
  | 4, _ => simp [plainCommand_error_iff]
  | 5, _ => simp
  | 6, _ => simp
  | 7, _ => simp

end Sys2Proof

namespace Sys2Proof.Machine

/-! ### The outputs of an evaluation -/

@[simp] theorem reportIllegal_out (s : State) :
    (reportIllegal s).out = { Config.unspec s.draws s.inp with status := illBit } := rfl

theorem undriven_eq (s : State) : undriven s = Config.unspec s.draws s.inp := rfl

theorem boundsInverted_iff (r : Record) : boundsInverted r = true ↔ r.top.toNat < r.base.toNat := by
  simp [boundsInverted]

theorem boundsInverted_eq_false_iff (r : Record) : boundsInverted r = false ↔ r.base.toNat ≤ r.top.toNat := by
  simp [boundsInverted]

theorem exec_fextract_of_none {s : State} {f : BitVec 4} (h : romSelect s.rom f = none) :
    exec (.fextract f) s = .next (reportIllegal s) := by
  simp [exec, execFextract, h]

theorem exec_finsert_of_none {s : State} {f : BitVec 4} (h : romSelect s.rom f = none) :
    exec (.finsert f) s = .next (reportIllegal s) := by
  simp [exec, execFinsert, h]

/-- Whatever its selector, FEXTRACT drives at most `fval` and `status`. -/
theorem exec_fextract_drives (f : BitVec 4) (s : State) :
    ∃ v st, exec (.fextract f) s = .next (drive s { undriven s with fval := v, status := st }) := by
  cases h : romSelect s.rom f with
  | some e => exact ⟨_, _, exec_fextract h⟩
  | none => exact ⟨(undriven s).fval, _, exec_fextract_of_none h⟩

/-- Whatever its selector, FINSERT drives at most `fval` and `status`. -/
theorem exec_finsert_drives (f : BitVec 4) (s : State) :
    ∃ v st, exec (.finsert f) s = .next (drive s { undriven s with fval := v, status := st }) := by
  cases h : romSelect s.rom f with
  | some e => exact ⟨_, _, exec_finsert h⟩
  | none => exact ⟨(undriven s).fval, _, exec_finsert_of_none h⟩

/-! ### The step at a legal and at an illegal command -/

theorem step_of_decode {s : State} {i : Instr} (h : decodeCommand s.inp.cmd = .ok i) :
    step s = mapNext (closeCycle 0) (exec i s) := by
  rw [step_eq, respond_ok h]

theorem step_of_illegalWord {s : State} (h : Claims.illegalWord s.inp.cmd) :
    step s = .next (closeCycle 0 (reportIllegal s)) := by
  obtain ⟨e, he⟩ := (decodeCommand_error_iff _).mpr h
  rw [step_eq, respond_error he, mapNext_next]

/-! ### The statements -/

/-- Settles O7: closing the cycle at LATENCY 0 is what forgets the earlier cycles. -/
theorem stepRunsDecodedCommand : Obligations.StepRunsDecodedCommand := by
  intro s i h
  exact step_of_decode h

/-- Settles O9, by the two variants. -/
theorem otherVariantsRefused : Obligations.OtherVariantsRefused := by
  rintro p s (h | h)
  · simp [evaluateCycle, h]
  · simp [evaluateCycle, h]

/-- Settles O11: each command drives named ports over the draw `undriven s`, and the ports it does not name keep it. -/
theorem undrivenOutputsAreFreeDraws : Obligations.UndrivenOutputsAreFreeDraws := by
  intro s
  refine ⟨⟨_, exec_decode s, rfl, rfl, rfl⟩, ⟨_, exec_encode s, rfl, rfl, ?_⟩, fun f => ⟨?_, ?_⟩,
    ⟨_, exec_validate s, rfl⟩, ?_⟩
  · intro h
    simp [(boundsInverted_iff _).mpr h, undriven_eq]
  · obtain ⟨v, st, h⟩ := exec_fextract_drives f s
    exact ⟨_, h, rfl, rfl, rfl⟩
  · obtain ⟨v, st, h⟩ := exec_finsert_drives f s
    exact ⟨_, h, rfl, rfl, rfl⟩
  · intro h
    exact ⟨_, step_of_illegalWord h, rfl⟩

/-- Settles O41: the spec equation of each command names only the ports it reads and the ROM. -/
theorem drivenOutputsDependOnPortsRead : Obligations.DrivenOutputsDependOnPortsRead := by
  intro a b hrom
  refine ⟨fun hwire htag => ⟨_, _, exec_decode a, exec_decode b, ?_⟩,
    fun hrec => ⟨_, _, exec_encode a, exec_encode b, fun hle => ?_, ?_⟩,
    fun hrec => ⟨_, _, exec_validate a, exec_validate b, ?_⟩, fun f hf hval => ?_⟩
  · simp [hwire, htag]
  · have hinv : boundsInverted a.inp.record = false := (boundsInverted_eq_false_iff _).mpr hle
    simp [← hrec, ← hrom, hinv]
  · simp [hrec]
  · simp [hrec]
  · obtain ⟨e, he⟩ := romSelect_of_lt a.rom hf
    have he' : romSelect b.rom f = some e := hrom ▸ he
    exact ⟨⟨_, _, exec_fextract he, exec_fextract he', by simp [hval]⟩,
      ⟨_, _, exec_finsert he, exec_finsert he', by simp [hval]⟩⟩

end Sys2Proof.Machine

/-!
PROOFS of the family 10_state: the state of the block (spec/10_state.md). First the facts the statements need about the encoder, the
status values, the ROM's entries and the object types, then one theorem for each statement.
-/

namespace Sys2Proof

/-! ### The fields of an encoded command -/

/-- The command word as a number (R65). -/
theorem encode_toNat (i : Instr) : (encode i).toNat = i.op.toNat + 8 * i.selector.toNat := by
  have hop := i.op.isLt
  change (0#1 ++ i.selector ++ i.op : BitVec (1 + 4 + 3)).toNat = _
  rw [BitVec.toNat_append, ← Nat.shiftLeft_add_eq_or_of_lt hop, BitVec.toNat_append]
  simp [Nat.shiftLeft_eq, Nat.mul_comm, Nat.add_comm]

@[simp] theorem commandOp_encode (i : Instr) : commandOp (encode i) = i.op := by
  have hop := i.op.isLt
  apply BitVec.eq_of_toNat_eq
  rw [commandOp_toNat, encode_toNat]
  omega

@[simp] theorem commandSelector_encode (i : Instr) : commandSelector (encode i) = i.selector := by
  have hop := i.op.isLt
  have hsel := i.selector.isLt
  apply BitVec.eq_of_toNat_eq
  rw [commandSelector_toNat, encode_toNat]
  omega

@[simp] theorem commandReserved_encode (i : Instr) : commandReserved (encode i) ≠ 1#1 := by
  have hop := i.op.isLt
  have hsel := i.selector.isLt
  rw [ne_eq, commandReserved_eq_one_iff, encode_toNat]
  omega

/-- Reading back an encoded command (R65): it is refused only for its selector. -/
theorem decodeCommand_encode (i : Instr) :
    decodeCommand (encode i) = if i.wf then .ok i else .error .reservedSelector := by
  cases i with
  | decode => rfl
  | encode => rfl
  | fextract f => cases hf : selectorLegal f <;> simp [decodeCommand, Instr.op, Instr.selector, Instr.wf, fieldCommand, hf]
  | finsert f => cases hf : selectorLegal f <;> simp [decodeCommand, Instr.op, Instr.selector, Instr.wf, fieldCommand, hf]
  | validate => rfl

theorem decodeCommand_encode_of_wf {i : Instr} (h : i.wf = true) : decodeCommand (encode i) = .ok i := by
  simp [decodeCommand_encode, h]

end Sys2Proof

namespace Sys2Proof.Machine

theorem romSelect_of_ge (rom : Rom) {f : BitVec 4} (hf : 10 ≤ f.toNat) : romSelect rom f = none := by
  have h : f = 10#4 ∨ f = 11#4 ∨ f = 12#4 ∨ f = 13#4 ∨ f = 14#4 ∨ f = 15#4 := by
    revert f
    decide
  rcases h with rfl | rfl | rfl | rfl | rfl | rfl <;> rfl

/-! ### The status values R126 allows -/

theorem statusLegal_illBit : statusLegal illBit = true := by decide

theorem statusLegal_zero : statusLegal 0#5 = true := by decide

/-- Bits other than ILL are raised together legally unless they hold both INV and SAT. -/
theorem statusLegal_raised : ∀ inv rsv pdrop sat : Bool, (inv && sat) = false →
    statusLegal (raiseIf inv invBit ||| raiseIf rsv rsvBit ||| raiseIf pdrop pdropBit ||| raiseIf sat satBit) = true := by
  decide

theorem statusLegal_decodeStatus (tag : Bool) (w0 : Word) : statusLegal (decodeStatus tag w0) = true := by
  simpa [decodeStatus, raiseIf] using statusLegal_raised false (reservedViolated tag (wireReserved w0)) false false rfl

theorem statusLegal_encodeStatus (r : Record) : statusLegal (encodeStatus r) = true := by
  have h := statusLegal_raised (boundsInverted r) (reservedViolated r.tag r.reserved) false false (Bool.and_false _)
  simpa [encodeStatus, raiseIf, BitVec.or_comm] using h

/-- A length saturates only where the bounds are in order, so VALIDATE never sets both INV and SAT (R126). -/
theorem boundsInverted_and_lengthSaturates (r : Record) : (boundsInverted r && lengthSaturates r) = false := by
  cases hinv : boundsInverted r with
  | false => rfl
  | true =>
    have hlt := (boundsInverted_iff r).mp hinv
    simp [lengthSaturates, hlt]

theorem statusLegal_validateStatus (r : Record) : statusLegal (validateStatus r) = true :=
  statusLegal_raised _ _ _ _ (boundsInverted_and_lengthSaturates r)

/-- Every command drives a status that R126 allows. -/
theorem exec_drives_legal (i : Instr) (s : State) :
    ∃ o, exec i s = .next (drive s o) ∧ statusLegal o.status = true := by
  cases i with
  | decode => exact ⟨_, exec_decode s, statusLegal_decodeStatus _ _⟩
  | encode => exact ⟨_, exec_encode s, statusLegal_encodeStatus _⟩
  | fextract f =>
    cases h : romSelect s.rom f with
    | some e => exact ⟨_, exec_fextract h, statusLegal_zero⟩
    | none => exact ⟨_, exec_fextract_of_none h, statusLegal_illBit⟩
  | finsert f =>
    cases h : romSelect s.rom f with
    | some e => exact ⟨_, exec_finsert h, statusLegal_zero⟩
    | none => exact ⟨_, exec_finsert_of_none h, statusLegal_illBit⟩
  | validate => exact ⟨_, exec_validate s, statusLegal_validateStatus _⟩

/-- So does every evaluation, illegal commands included. -/
theorem respond_drives_legal (s : State) :
    ∃ o, respond s = .next (drive s o) ∧ statusLegal o.status = true := by
  obtain ⟨i, -, h⟩ | ⟨e, -, h⟩ := respond_cases s
  · obtain ⟨o, ho, hlegal⟩ := exec_drives_legal i s
    exact ⟨o, h.trans ho, hlegal⟩
  · exact ⟨_, h, statusLegal_illBit⟩

theorem encodeStatus_cursor (r : Record) (c : Word) : encodeStatus { r with cursor := c } = encodeStatus r := rfl

theorem validateStatus_cursor (r : Record) (c : Word) : validateStatus { r with cursor := c } = validateStatus r := rfl

/-! ### The bits of a ROM entry -/

theorem placementAdmitted_iff (p : Placement) :
    placementAdmitted p = true ↔ p.word < 4 ∧ p.start ≤ p.last ∧ p.last ≤ 63 := by
  simp [placementAdmitted, and_assoc]

theorem placementMask_testBit (p : Placement) (j : Nat) :
    (placementMask p).testBit j = decide (j < placementSize p) := by
  simp [placementMask, Nat.one_shiftLeft]

theorem romEntry_start_toNat {p : Placement} (h : placementAdmitted p = true) :
    (romEntry p).start.toNat = p.start := by
  obtain ⟨-, hle, hlast⟩ := (placementAdmitted_iff p).mp h
  simp only [romEntry, BitVec.toNat_ofNat]
  omega

theorem romEntry_word_toNat {p : Placement} (h : placementAdmitted p = true) :
    (romEntry p).word.toNat = p.word := by
  obtain ⟨hword, -, -⟩ := (placementAdmitted_iff p).mp h
  simp only [romEntry, BitVec.toNat_ofNat]
  omega

theorem romEntry_maxValue (p : Placement) : (romEntry p).maxValue = (romEntry p).maskUnshifted := rfl

/-- An entry's mask holds the bits of its inclusive range and no others (R79). -/
theorem romEntry_mask64_getLsbD {p : Placement} (h : placementAdmitted p = true) (j : Nat) :
    (romEntry p).mask64.getLsbD j = (decide (p.start ≤ j) && decide (j ≤ p.last)) := by
  obtain ⟨-, hle, hlast⟩ := (placementAdmitted_iff p).mp h
  rw [Bool.eq_iff_iff]
  simp only [romEntry, BitVec.getLsbD_ofNat, Nat.testBit_shiftLeft, placementMask_testBit, Bool.and_eq_true, decide_eq_true_eq]
  simp only [placementSize]
  omega

/-- The masks before and after the shift are the same bits. -/
theorem romEntry_mask64_eq_shiftLeft (p : Placement) :
    (romEntry p).mask64 = (romEntry p).maskUnshifted <<< p.start := by
  apply BitVec.eq_of_toNat_eq
  simp [romEntry, BitVec.toNat_shiftLeft, Nat.shiftLeft_eq]

/-- Placing an extracted field gives the word masked: shifting right and left again only clears the bits below the field. -/
theorem encodeField_extractField {p : Placement} (h : placementAdmitted p = true) (w : Word) :
    encodeField (romEntry p) (extractField (romEntry p) w) = w &&& (romEntry p).mask64 := by
  simp only [encodeField, extractField, romEntry_maxValue, romEntry_start_toNat h, romEntry_mask64_eq_shiftLeft,
    BitVec.and_assoc, BitVec.and_self]
  apply BitVec.eq_of_getLsbD_eq
  intro j hj
  by_cases hs : j < p.start
  · simp [hs]
  · simp [hj, hs, Nat.add_sub_cancel' (Nat.le_of_not_lt hs)]

theorem placement256_admitted (n : FieldName) : placementAdmitted (placement256 n) = true := by
  cases n <;> decide

/-- The places of the fields 0 to 8 (R36), in selector order. -/
def partitionPlacements : List Placement :=
  [⟨0, 0, 0⟩, ⟨0, 1, 12⟩, ⟨0, 13, 15⟩, ⟨0, 16, 31⟩, ⟨0, 32, 55⟩, ⟨0, 56, 63⟩, ⟨1, 0, 63⟩, ⟨2, 0, 63⟩, ⟨3, 0, 63⟩]

theorem romPartition_rom256 : romPartition rom256 = partitionPlacements.map romEntry := by decide

theorem partitionPlacements_admitted : ∀ p ∈ partitionPlacements, placementAdmitted p = true := by decide

/-- The places, as word and bit range, cover every wire bit once. -/
theorem partitionPlacements_cover : ∀ (k : Fin 4) (b : Fin 64),
    (partitionPlacements.filter fun p => p.word = k.val ∧ p.start ≤ b.val ∧ b.val ≤ p.last).length = 1 := by
  decide

/-! ### Object types -/

theorem otypeXor_toNat (v : BitVec 24) : (otypeXor v).toNat = 2 ^ 24 - 1 - v.toNat := by
  rw [otypeXor_eq_not, BitVec.toNat_not]

theorem otypeXor_otypeXor (v : BitVec 24) : otypeXor (otypeXor v) = v := by
  simp [otypeXor_eq_not]

theorem wireOtype_toNat (w0 : Word) : (wireOtype w0).toNat = w0.toNat / 2 ^ 32 % 2 ^ 24 := by
  simp [wireOtype, BitVec.extractLsb'_toNat, Nat.shiftRight_eq_div_pow]

/-- R30's classes, read off the stored form (R60). -/
theorem otypeClass_otypeXor (v : BitVec 24) :
    otypeClass (otypeXor v) =
      if v.toNat = 0 then .unsealed
      else if v.toNat = 1 then .sentry
      else if 2 ≤ v.toNat ∧ v.toNat ≤ 15 then .reservedSentinel
      else .sealed := by
  have hv := v.isLt
  have hunsealed : otypeXor v = unsealedSentinel ↔ v.toNat = 0 := by
    rw [← BitVec.toNat_inj, otypeXor_toNat]
    simp only [unsealedSentinel, BitVec.toNat_ofNat]
    omega
  have hsentry : otypeXor v = sentryOtype ↔ v.toNat = 1 := by
    rw [← BitVec.toNat_inj, otypeXor_toNat]
    simp only [sentryOtype, BitVec.toNat_ofNat]
    omega
  have hreserved : otypeReservedLo ≤ otypeXor v ∧ otypeXor v ≤ otypeReservedHi ↔ 2 ≤ v.toNat ∧ v.toNat ≤ 15 := by
    rw [BitVec.le_def, BitVec.le_def, otypeXor_toNat]
    simp only [otypeReservedLo, otypeReservedHi, BitVec.toNat_ofNat]
    omega
  simp only [otypeClass, hunsealed, hsentry, hreserved]

theorem decodedRecord_otype (wire : Image) (tag : Bool) :
    (decodedRecord wire tag).otype = otypeXor (wireOtype (imageWord wire 0)) := rfl

/-! ### The statements -/

/-- Settles O14: a step only drives the outputs, with a status R126 allows, and at LATENCY 0 remembers no cycle. -/
theorem stepKeepsInvariant : Obligations.StepKeepsInvariant := by
  rintro s t ⟨hrom, -, -⟩ hstep
  obtain ⟨o, ho, hlegal⟩ := respond_drives_legal s
  rw [step_eq, ho, mapNext_next] at hstep
  obtain rfl : closeCycle 0 (drive s o) = t := by simpa using hstep
  exact ⟨hrom, hlegal, rfl⟩

/-- Settles O10: whatever a command does, it does by driving the output ports. -/
theorem commandFrame : Obligations.CommandFrame := by
  intro i s
  obtain ⟨o, h⟩ := exec_drives i s
  exact ⟨_, h, rfl, rfl, rfl, rfl⟩

/-- Settles O12: a cycle drives the output ports and is closed, which cuts `past` to the window. -/
theorem cycleKeepsRomAndInputs : Obligations.CycleKeepsRomAndInputs := by
  intro p s t h
  obtain ⟨-, o, rfl⟩ := evaluateCycle_next h
  exact ⟨rfl, rfl, List.length_take_le _ _⟩

/-- Settles O29: each summand is the word under its field's mask, and the masks of a word cover it. -/
theorem wordIsOrOfItsFields : Obligations.WordIsOrOfItsFields := by
  intro w
  have hfield (n : FieldName) := encodeField_extractField (placement256_admitted n) w
  refine ⟨?_, ?_, ?_, ?_⟩
  · have hcover : (romEntry (placement256 .flags)).mask64 ||| (romEntry (placement256 .perms)).mask64 |||
        (romEntry (placement256 .resperms)).mask64 ||| (romEntry (placement256 .uperms)).mask64 |||
        (romEntry (placement256 .otype)).mask64 ||| (romEntry (placement256 .reserved)).mask64 = BitVec.allOnes 64 := by
      decide
    simp only [rom256, romOf, hfield, ← BitVec.and_or_distrib_left, hcover, BitVec.and_allOnes]
  · exact ((hfield .cursor).trans (BitVec.and_allOnes)).symm
  · exact ((hfield .base).trans (BitVec.and_allOnes)).symm
  · exact ((hfield .length).trans (BitVec.and_allOnes)).symm

/-- Settles O34: DECODE's object type is the complement of the stored one, which reverses the order of R30's ranges. -/
theorem storedOtypeClasses : Obligations.StoredOtypeClasses := by
  refine ⟨fun v => ⟨otypeXor_toNat v, otypeXor_otypeXor v⟩, fun s => ⟨_, exec_decode s, ?_⟩⟩
  have hstored : Claims.wordNat s.inp.wire 0 / 2 ^ 32 % 2 ^ 24 = (wireOtype (imageWord s.inp.wire 0)).toNat := by
    rw [wireOtype_toNat, imageWord_toNat, Claims.wordNat]
  simp only [drive_out, decodedRecord_otype, otypeClass_otypeXor, hstored]
  generalize (wireOtype (imageWord s.inp.wire 0)).toNat = n
  split_ifs <;> simp <;> omega

/-- Settles O6: the word of the table is 8 bits wide, so that placing it cuts nothing off. -/
theorem fetchWordPlacesCommand : Obligations.FetchWordPlacesCommand := by
  intro s i hwf
  have hword : BitVec.ofNat 8 ((encode i).toNat % 2 ^ 8) = encode i := by
    rw [Nat.mod_eq_of_lt (encode i).isLt, BitVec.ofNat_toNat, BitVec.setWidth_eq]
  have hdec := decodeCommand_encode_of_wf hwf
  refine ⟨?_, ?_, ?_, rfl, rfl⟩
  · rw [decodeTableWord, hword, hdec, Except.toOption]
  · simp only [withFetchWord_inp, hword, hdec]
  · simp only [withFetchWord_inp, hword]

/-- Settles O13: clause by clause, from the fields of the reset state. -/
theorem resetMeetsInvariant : Obligations.ResetMeetsInvariant :=
  ⟨reset_rom, statusLegal_zero, reset_past⟩

/-- Settles O15: the command on the ports at reset is DECODE of the zero image, whose record is the null record (R97). -/
theorem resetOutputsAreEvaluated : Obligations.ResetOutputsAreEvaluated := by
  have hcmd : decodeCommand State.reset.inp.cmd = .ok .decode := by decide
  have hrecord : decodedRecord State.reset.inp.wire State.reset.inp.tag = nullRecord := by decide
  have hstatus : decodeStatus State.reset.inp.tag (imageWord State.reset.inp.wire 0) = 0#5 := by decide
  exact ⟨_, step_of_decode hcmd, respond_ok hcmd, hrecord, hstatus⟩

/-- Settles O19: the computed entries are the table's rows, and a reserved selector is neither named nor decoded. -/
theorem resetRomIsTable : Obligations.ResetRomIsTable := by
  refine ⟨by decide, by decide, by decide, by decide, by decide, by decide, by decide, by decide, by decide, by decide,
    fun f hf => ?_⟩
  have hill : selectorLegal f = false := by simpa [selectorLegal] using hf
  exact ⟨romSelect_of_ge _ hf, by simp [decodeCommand_encode, Instr.wf, hill], by simp [decodeCommand_encode, Instr.wf, hill]⟩

/-- Settles O20: a wire bit lies in an entry's mask exactly when it lies in the range the entry was built from. -/
theorem fieldsPartitionImage : Obligations.FieldsPartitionImage := by
  refine ⟨by decide, fun k b => ?_⟩
  rw [romPartition_rom256, List.filter_map, List.length_map, ← partitionPlacements_cover k b]
  congr 1
  refine List.filter_congr fun p hp => ?_
  have hadm := partitionPlacements_admitted p hp
  simp only [Function.comp_apply, romEntry_word_toNat hadm, romEntry_mask64_getLsbD hadm, Bool.decide_and]

/-- Settles O40: no status condition names the cursor, and DECODE reads word 1 for the cursor alone. -/
theorem cursorIsNeverChecked : Obligations.CursorIsNeverChecked := by
  refine ⟨fun i s c => ?_, fun s w0 w1 w2 w3 c => ⟨_, _, exec_decode _, exec_decode _, ?_, ?_⟩⟩
  · cases i with
    | decode => exact ⟨_, _, exec_decode _, exec_decode _, rfl⟩
    | encode => exact ⟨_, _, exec_encode _, exec_encode _, (encodeStatus_cursor _ _).symm⟩
    | fextract f =>
      cases h : romSelect s.rom f with
      | some e => exact ⟨_, _, exec_fextract h, exec_fextract h, rfl⟩
      | none => exact ⟨_, _, exec_fextract_of_none h, exec_fextract_of_none h, rfl⟩
    | finsert f =>
      cases h : romSelect s.rom f with
      | some e => exact ⟨_, _, exec_finsert h, exec_finsert h, rfl⟩
      | none => exact ⟨_, _, exec_finsert_of_none h, exec_finsert_of_none h, rfl⟩
    | validate => exact ⟨_, _, exec_validate _, exec_validate _, (validateStatus_cursor _ _).symm⟩
  · simp
  · simp [decodedRecord]

end Sys2Proof.Machine

/-!
PROOFS of the family 20_memory: the image as words and as bytes (spec/20_memory.md). First the facts about an image and its words, a
word and its bytes, and an image and its bytes; then one theorem for each statement.
-/

namespace Sys2Proof.Machine

/-! ### An image and its words (R46) -/

/-- The words stand side by side, so that each weighs as much as all the bits below it. -/
theorem imageOfWords_toNat (w0 w1 w2 w3 : Word) :
    (imageOfWords w0 w1 w2 w3).toNat = w0.toNat + 2 ^ 64 * w1.toNat + 2 ^ 128 * w2.toNat + 2 ^ 192 * w3.toNat := by
  have happend {m : Nat} (hi : BitVec m) (lo : Word) : (hi ++ lo).toNat = hi.toNat * 2 ^ 64 + lo.toNat := by
    rw [BitVec.toNat_append, ← Nat.shiftLeft_add_eq_or_of_lt lo.isLt, Nat.shiftLeft_eq]
  calc (imageOfWords w0 w1 w2 w3).toNat
      = ((w3.toNat * 2 ^ 64 + w2.toNat) * 2 ^ 64 + w1.toNat) * 2 ^ 64 + w0.toNat := by
        rw [← happend w3 w2, ← happend _ w1, ← happend _ w0, imageOfWords]
    _ = _ := by ring

/-- An image is the image of its own words. -/
@[simp] theorem imageOfWords_imageWord (w : Image) :
    imageOfWords (imageWord w 0) (imageWord w 1) (imageWord w 2) (imageWord w 3) = w := by
  apply BitVec.eq_of_toNat_eq
  have hw := w.isLt
  simp only [imageOfWords_toNat, imageWord_toNat]
  omega

/-- An image of four words is the image that has them. -/
theorem imageOfWords_eq_iff (w0 w1 w2 w3 : Word) (w : Image) :
    imageOfWords w0 w1 w2 w3 = w ↔
      w0 = imageWord w 0 ∧ w1 = imageWord w 1 ∧ w2 = imageWord w 2 ∧ w3 = imageWord w 3 := by
  constructor
  · rintro rfl
    simp
  · rintro ⟨rfl, rfl, rfl, rfl⟩
    exact imageOfWords_imageWord w

/-! ### A word and its eight bytes (R47) -/

theorem wordByte_le_getLsbD (w : Word) (i j : Nat) :
    (wordByte .le w i).getLsbD j = (decide (j < 8) && w.getLsbD (8 * i + j)) :=
  BitVec.getLsbD_extractLsb' _ _ _ _

/-- Order BE numbers the bytes of a word from the other end. -/
theorem wordByte_be {i : Nat} (hi : i < 8) (w : Word) : wordByte .be w i = wordByte .le w (7 - i) := by
  simp only [wordByte]
  congr 1
  omega

theorem wordOfBytes_be (bs : List Byte) : wordOfBytes .be bs = wordOfBytes .le bs.reverse := rfl

/-- Bit j of a string of bytes is bit `j mod 8` of byte `j / 8`. -/
theorem bytesValue_testBit (bs : List Byte) (j : Nat) :
    (bytesValue bs).testBit j = (bs.getD (j / 8) 0#8).getLsbD (j % 8) := by
  induction bs generalizing j with
  | nil => simp [bytesValue]
  | cons b bs ih =>
    have hsplit : bytesValue (b :: bs) = 2 ^ 8 * bytesValue bs + b.toNat := Nat.add_comm _ _
    rw [hsplit, Nat.testBit_two_pow_mul_add _ b.isLt]
    by_cases hj : j < 8
    · rw [if_pos hj, BitVec.testBit_toNat, Nat.div_eq_of_lt hj, Nat.mod_eq_of_lt hj, List.getD_cons_zero]
    · obtain ⟨j, rfl⟩ := Nat.exists_eq_add_of_le' (Nat.le_of_not_lt hj)
      simp [ih]

theorem wordOfBytes_le_getLsbD (bs : List Byte) (j : Nat) :
    (wordOfBytes .le bs).getLsbD j = (decide (j < 64) && (bs.getD (j / 8) 0#8).getLsbD (j % 8)) := by
  simp only [wordOfBytes, BitVec.getLsbD_ofNat, bytesValue_testBit]

/-- In order LE a buffer holds the word whose bytes it lists. -/
theorem wordOfBytes_le_eq_iff (bs : List Byte) (w : Word) :
    wordOfBytes .le bs = w ↔ ∀ i < 8, bs.getD i 0#8 = wordByte .le w i := by
  constructor
  · rintro rfl i hi
    apply BitVec.eq_of_getLsbD_eq
    intro j hj
    have hbit : 8 * i + j < 64 := by omega
    have hbyte : (8 * i + j) / 8 = i := by omega
    have hplace : (8 * i + j) % 8 = j := by omega
    simp only [wordByte_le_getLsbD, wordOfBytes_le_getLsbD, hj, hbit, hbyte, hplace, decide_true, Bool.true_and]
  · intro h
    apply BitVec.eq_of_getLsbD_eq
    intro j hj
    rw [wordOfBytes_le_getLsbD, h (j / 8) (by omega), wordByte_le_getLsbD, Nat.div_add_mod]
    simp [hj, Nat.mod_lt]

/-- Eight bytes hold a word exactly when they are its bytes, in either order. -/
theorem wordOfBytes_eq_iff (bo : ByteOrder) {bs : List Byte} (hlen : bs.length = 8) (w : Word) :
    wordOfBytes bo bs = w ↔ ∀ i < 8, bs[i]? = some (wordByte bo w i) := by
  have hgetD {l : List Byte} (hl : l.length = 8) {i : Nat} (hi : i < 8) (b : Byte) :
      l.getD i 0#8 = b ↔ l[i]? = some b := by
    simp [List.getD_eq_getElem?_getD, List.getElem?_eq_getElem (hl ▸ hi)]
  cases bo with
  | le =>
    rw [wordOfBytes_le_eq_iff]
    exact forall₂_congr fun i hi => hgetD hlen hi _
  | be =>
    rw [wordOfBytes_be, wordOfBytes_le_eq_iff]
    have hmirror {i : Nat} (hi : i < 8) :
        bs.reverse.getD (7 - i) 0#8 = wordByte .le w (7 - i) ↔ bs[i]? = some (wordByte .be w i) := by
      rw [hgetD (by simpa using hlen) (by omega), List.getElem?_reverse' (j := i) (by omega), wordByte_be hi]
    refine ⟨fun h i hi => (hmirror hi).mp (h (7 - i) (by omega)), fun h i hi => ?_⟩
    have hback := (hmirror (i := 7 - i) (by omega)).mpr (h (7 - i) (by omega))
    rwa [show 7 - (7 - i) = i by omega] at hback

/-! ### An image and its 32 bytes (R47) -/

@[simp] theorem imageBytes_length (bo : ByteOrder) (w : Image) : (imageBytes bo w).length = 32 := by
  simp [imageBytes]

/-- Byte 8k+i of the image is byte i of word k. -/
theorem imageBytes_getElem? (bo : ByteOrder) (w : Image) {k i : Nat} (hk : k < 4) (hi : i < 8) :
    (imageBytes bo w)[8 * k + i]? = some (wordByte bo (imageWord w k) i) := by
  have hword : (8 * k + i) / 8 = k := by omega
  have hplace : (8 * k + i) % 8 = i := by omega
  rw [imageBytes, List.getElem?_map, List.getElem?_range (by omega), Option.map_some, imageByte, hword, hplace]

/-- A buffer of 32 bytes is the image's exactly when each of its words lists the bytes of the image's word. -/
theorem imageBytes_eq_iff (bo : ByteOrder) (w : Image) {bs : List Byte} (hlen : bs.length = 32) :
    imageBytes bo w = bs ↔ ∀ k < 4, ∀ i < 8, bs[8 * k + i]? = some (wordByte bo (imageWord w k) i) := by
  constructor
  · rintro rfl k hk i hi
    exact imageBytes_getElem? bo w hk hi
  · intro h
    apply List.ext_getElem?
    intro n
    by_cases hn : n < 32
    · have hk : n / 8 < 4 := by omega
      have hi : n % 8 < 8 := by omega
      rw [← Nat.div_add_mod n 8, imageBytes_getElem? bo w hk hi, h _ hk _ hi]
    · rw [List.getElem?_eq_none (by simp; omega), List.getElem?_eq_none (by omega)]

/-- The part of a buffer that holds word k holds a word exactly when the word's bytes stand there. -/
theorem wordOfBytes_wordBytes_eq_iff (bo : ByteOrder) {bs : List Byte} (hlen : bs.length = 32) {k : Nat} (hk : k < 4) (w : Word) :
    wordOfBytes bo (wordBytes bs k) = w ↔ ∀ i < 8, bs[8 * k + i]? = some (wordByte bo w i) := by
  have hlen8 : (wordBytes bs k).length = 8 := by
    simp only [wordBytes, List.length_take, List.length_drop]
    omega
  rw [wordOfBytes_eq_iff bo hlen8]
  refine forall₂_congr fun i hi => ?_
  rw [wordBytes, List.getElem?_take_of_lt hi, List.getElem?_drop]

/-- Reading an image from a buffer succeeds with an image exactly when the buffer is that image's bytes. -/
theorem imageOfBytes_eq_some_iff (bo : ByteOrder) {bs : List Byte} (hlen : bs.length = 32) (w : Image) :
    imageOfBytes bo bs = some w ↔ imageBytes bo w = bs := by
  have hword {k : Nat} (hk : k < 4) := wordOfBytes_wordBytes_eq_iff bo hlen hk (imageWord w k)
  rw [imageOfBytes, if_pos hlen, Option.some_inj, imageOfWords_eq_iff, imageBytes_eq_iff bo w hlen,
    hword (k := 0) (by omega), hword (k := 1) (by omega), hword (k := 2) (by omega), hword (k := 3) (by omega)]
  refine ⟨fun ⟨h0, h1, h2, h3⟩ k hk => ?_, fun h => ⟨h 0 (by omega), h 1 (by omega), h 2 (by omega), h 3 (by omega)⟩⟩
  interval_cases k <;> assumption

/-! ### The statements -/

/-- Settles O45: word k is a slice of the image's number, and an image of four words is their positional sum. -/
theorem imageIsFourWords : Obligations.ImageIsFourWords :=
  ⟨fun w k _ => imageWord_toNat w k, imageOfWords_toNat⟩

/-- Settles O46: byte 8k+i is byte i of word k, a slice of the word's number that starts where the order puts it. -/
theorem imageByteOrder : Obligations.ImageByteOrder := by
  have hslice (w : Image) (k start : Nat) :
      (imageWord w k).extractLsb' start 8 = BitVec.ofNat 8 (Claims.wordNat w k / 2 ^ start) := by
    rw [Claims.wordNat, ← imageWord_toNat, ← Nat.shiftRight_eq_div_pow, BitVec.extractLsb']
  refine ⟨rfl, fun w k i hk hi => ⟨?_, ?_, imageBytes_length _ _, imageBytes_length _ _⟩⟩
  · rw [imageBytes_getElem? _ _ hk hi, wordByte, hslice]
  · rw [imageBytes_getElem? _ _ hk hi, wordByte, hslice]

/-- Settles O47: a buffer of 32 bytes holds exactly the image whose bytes it is. -/
theorem imageBytesRoundTrip : Obligations.ImageBytesRoundTrip := by
  refine ⟨fun bo w => (imageOfBytes_eq_some_iff bo (imageBytes_length bo w) w).mpr rfl, fun bo bs hlen => ?_⟩
  obtain ⟨w, hw⟩ : ∃ w, imageOfBytes bo bs = some w := ⟨_, if_pos hlen⟩
  exact ⟨w, hw, (imageOfBytes_eq_some_iff bo hlen w).mp hw⟩

end Sys2Proof.Machine

/-!
PROOFS of the family 30_encoding: the command word and the assembler's lines (spec/30_encoding.md). First the facts about the
decoder, the cycles of a LATENCY window, the null record, an extracted field and the lines; then one theorem for each statement.
-/

namespace Sys2Proof

/-! ### The decoder as the inverse of the encoder -/

/-- A command word is the encoding of the command whose fields it holds (R65). -/
theorem encode_eq_of_fields {c : Command} {i : Instr} (hres : commandReserved c ≠ 1#1)
    (hop : (commandOp c).toNat = i.op.toNat) (hsel : commandSelector c = i.selector) : encode i = c := by
  have hc := c.isLt
  have h7 : c.toNat / 128 ≠ 1 := fun h => hres ((commandReserved_eq_one_iff c).mpr h)
  apply BitVec.eq_of_toNat_eq
  rw [encode_toNat, ← hop, ← hsel, commandOp_toNat, commandSelector_toNat]
  omega

theorem plainCommand_ok_iff (f : BitVec 4) (i j : Instr) : plainCommand f i = .ok j ↔ f = 0#4 ∧ i = j := by
  by_cases hf : f = 0#4
  · simp [plainCommand, hf]
  · simp [plainCommand, hf]

theorem fieldCommand_ok_iff (f : BitVec 4) (i j : Instr) :
    fieldCommand f i = .ok j ↔ selectorLegal f = true ∧ i = j := by
  by_cases hf : selectorLegal f = true
  · simp [fieldCommand, hf]
  · simp [fieldCommand, hf]

/-- What an accepted word gives, one case for each operation code that has a meaning (R66). -/
theorem encode_eq_and_wf_of_decodeCommand {c : Command} {i : Instr} (h : decodeCommand c = .ok i) :
    encode i = c ∧ i.wf = true := by
  by_cases hres : commandReserved c = 1#1
  · simp [decodeCommand, hres] at h
  simp only [decodeCommand, hres, if_false] at h
  split at h
  case h_1 hop | h_2 hop | h_5 hop =>
    obtain ⟨hsel, rfl⟩ := (plainCommand_ok_iff _ _ _).mp h
    exact ⟨encode_eq_of_fields hres hop hsel, rfl⟩
  case h_3 hop | h_4 hop =>
    obtain ⟨hlegal, rfl⟩ := (fieldCommand_ok_iff _ _ _).mp h
    exact ⟨encode_eq_of_fields hres hop rfl, hlegal⟩
  case h_6 => simp at h

theorem decodeCommand_ok_iff (c : Command) (i : Instr) :
    decodeCommand c = .ok i ↔ i.wf = true ∧ c = encode i := by
  constructor
  · intro h
    obtain ⟨henc, hwf⟩ := encode_eq_and_wf_of_decodeCommand h
    exact ⟨hwf, henc.symm⟩
  · rintro ⟨hwf, rfl⟩
    exact decodeCommand_encode_of_wf hwf

theorem selectorLegal_iff (f : BitVec 4) : selectorLegal f = true ↔ f.toNat < 10 := by
  simp [selectorLegal]

/-! ### The list of the legal words -/

/-- The well-formed commands, in the order in which R69 lists their words. -/
def legalCommands : List Instr :=
  [.decode, .encode] ++ ((List.range 10).map fun n => .fextract (BitVec.ofNat 4 n)) ++
    ((List.range 10).map fun n => .finsert (BitVec.ofNat 4 n)) ++ [.validate]

/-- The ten legal selectors, as a list of numbers. -/
theorem exists_mem_range_iff_selectorLegal (f : BitVec 4) :
    (∃ n < 10, BitVec.ofNat 4 n = f) ↔ selectorLegal f = true := by
  rw [selectorLegal_iff]
  constructor
  · rintro ⟨n, hn, rfl⟩
    rw [BitVec.toNat_ofNat]
    omega
  · intro hf
    exact ⟨f.toNat, hf, by simp⟩

theorem mem_legalCommands_iff (i : Instr) : i ∈ legalCommands ↔ i.wf = true := by
  cases i with
  | decode => simp [legalCommands, Instr.wf]
  | encode => simp [legalCommands, Instr.wf]
  | fextract f => simp [legalCommands, Instr.wf, exists_mem_range_iff_selectorLegal]
  | finsert f => simp [legalCommands, Instr.wf, exists_mem_range_iff_selectorLegal]
  | validate => simp [legalCommands, Instr.wf]

theorem legalWords_eq_map_encode : Claims.legalWords = legalCommands.map encode := by decide

theorem mem_legalWords_iff (c : Command) : c ∈ Claims.legalWords ↔ ∃ i, decodeCommand c = .ok i := by
  simp only [legalWords_eq_map_encode, List.mem_map, mem_legalCommands_iff, decodeCommand_ok_iff, eq_comm (a := c)]

/-- A field operation's word as a number, under a legal selector. -/
theorem decodeCommand_field_iff (c : Command) {i : Instr} {f : BitVec 4} (hwf : i.wf = selectorLegal f)
    (hsel : i.selector = f) : decodeCommand c = .ok i ↔ f.toNat < 10 ∧ c.toNat = i.op.toNat + 8 * f.toNat := by
  rw [decodeCommand_ok_iff, hwf, selectorLegal_iff, ← BitVec.toNat_inj, encode_toNat, hsel]

/-- A plain operation's word, under the mask that keeps every bit. -/
theorem decodeCommand_plain_iff (c : Command) {i : Instr} (hwf : i.wf = true) :
    decodeCommand c = .ok i ↔ c &&& 0xFF#8 = encode i := by
  have hmask : c &&& 0xFF#8 = c := BitVec.and_allOnes
  rw [decodeCommand_ok_iff, hmask, and_iff_right hwf]

end Sys2Proof

namespace Sys2Proof.Machine

/-! ### The cycles of a LATENCY window -/

/-- Two cycles present the same exactly when neither `cmd` nor a port the command reads differs: for each command, the read
ports of R71. -/
theorem samePresented_iff_not_presentedDiffers (now old : Inputs) :
    samePresented now old = true ↔ ¬ Claims.presentedDiffers now old := by
  rw [samePresented_iff, Claims.presentedDiffers]
  cases h : decodeCommand now.cmd with
  | error e => simp [inputsRead]
  | ok i => cases i <;> simp [inputsRead]

/-- The window holds when it is full and no cycle in it differs (R148). -/
theorem inputsHeld_iff (latency : Nat) (s : State) :
    inputsHeld latency s = true ↔ latency ≤ s.past.length ∧
      ∀ k old, k < latency → s.past[k]? = some old → ¬ Claims.presentedDiffers s.inp old := by
  simp only [inputsHeld, Bool.and_eq_true, decide_eq_true_eq, List.all_eq_true, List.mem_iff_getElem?, List.getElem?_take,
    samePresented_iff_not_presentedDiffers]
  refine and_congr_right fun _ => ⟨fun h k old hk hold => h old ⟨k, by simpa [hk] using hold⟩, ?_⟩
  rintro h old ⟨k, hold⟩
  by_cases hk : k < latency
  · exact h k old hk (by simpa [hk] using hold)
  · simp [hk] at hold

/-! ### Stored lengths and the null record -/

theorem lengthXor_toNat (w : Word) : (lengthXor w).toNat = 2 ^ 64 - 1 - w.toNat := by
  rw [lengthXor_eq_not, BitVec.toNat_not]

theorem lengthXor_lengthXor (w : Word) : lengthXor (lengthXor w) = w := by
  simp [lengthXor_eq_not]

theorem decodedRecord_zero : decodedRecord 0#256 false = nullRecord := by decide

theorem decodeStatus_zero : decodeStatus false (imageWord 0#256 0) = 0#5 := by decide

/-- DECODE of the zero image with tag 0 (R97). -/
theorem exec_decode_zero {s : State} (hwire : s.inp.wire = 0#256) (htag : s.inp.tag = false) :
    exec .decode s = .next (drive s { undriven s with record := nullRecord, status := 0#5 }) := by
  rw [exec_decode, hwire, htag, decodedRecord_zero, decodeStatus_zero]

/-! ### An extracted field as a number -/

theorem romEntry_maskUnshifted_toNat {p : Placement} (h : placementAdmitted p = true) :
    (romEntry p).maskUnshifted.toNat = 2 ^ placementSize p - 1 := by
  obtain ⟨-, -, hlast⟩ := (placementAdmitted_iff p).mp h
  have hsize : placementSize p ≤ 64 := by
    simp only [placementSize]
    omega
  have hpow : 2 ^ placementSize p ≤ 2 ^ 64 := Nat.pow_le_pow_right (by decide) hsize
  simp only [romEntry, placementMask, Nat.one_shiftLeft, BitVec.toNat_ofNat]
  omega

theorem extractField_toNat {p : Placement} (h : placementAdmitted p = true) (w : Word) :
    (extractField (romEntry p) w).toNat = w.toNat / 2 ^ p.start % 2 ^ placementSize p := by
  rw [extractField, BitVec.toNat_and, BitVec.toNat_ushiftRight, romEntry_start_toNat h, romEntry_maskUnshifted_toNat h,
    Nat.and_two_pow_sub_one_eq_mod, Nat.shiftRight_eq_div_pow]

/-! ### The assembler's lines (R74, R75) -/

@[simp] theorem lineInputs_cmd (l : AsmLine) (i : Inputs) : (lineInputs l i).cmd = encode (lineCommand l) := by
  cases l <;> rfl

theorem lineCommand_fextract (f : BitVec 4) (v : Word) : lineCommand (.fextract f v) = .fextract f := rfl

theorem lineCommand_nullcap : lineCommand .nullcap = .decode := rfl

/-- A line presents what its expansion presents. -/
theorem presentLine_expandLine (s : State) (l : AsmLine) : s.presentLine (expandLine l) = s.presentLine l := by
  cases l <;> rfl

theorem decodeCommand_presentLine (s : State) {l : AsmLine} (h : (lineCommand l).wf = true) :
    decodeCommand (s.presentLine l).inp.cmd = .ok (lineCommand l) := by
  rw [presentLine_inp, lineInputs_cmd, decodeCommand_encode_of_wf h]

/-- The step after a line is presented is its command's meaning, closed at LATENCY 0. -/
theorem step_presentLine (s : State) {l : AsmLine} (h : (lineCommand l).wf = true) :
    step (s.presentLine l) = mapNext (closeCycle 0) (exec (lineCommand l) (s.presentLine l)) :=
  step_of_decode (decodeCommand_presentLine s h)

/-- The step after an FEXTRACT line reads the field of the ROM entry that the selector names. -/
theorem step_presentLine_fextract {s : State} (hrom : romBuiltIn s) {f : BitVec 4} {p : Placement} (hf : selectorLegal f = true)
    (hp : placementAdmitted p = true) (hentry : romSelect rom256 f = some (romEntry p)) (v : Word) :
    ∃ t, step (s.presentLine (.fextract f v)) = .next t ∧
      t.out.fval.toNat = v.toNat / 2 ^ p.start % 2 ^ placementSize p ∧ t.out.status = 0#5 := by
  have hselect : romSelect (s.presentLine (.fextract f v)).rom f = some (romEntry p) := by
    rw [presentLine_rom, hrom, hentry]
  rw [step_presentLine s (l := .fextract f v) hf, lineCommand_fextract, exec_fextract hselect, mapNext_next]
  exact ⟨_, rfl, extractField_toNat hp v, rfl⟩

/-! ### The statements -/

/-- Settles O1: the encoder puts each field where the decoder reads it, and a legal selector is not refused. -/
theorem decodeOfEncodedCommand : Obligations.DecodeOfEncodedCommand := by
  intro i hwf
  exact decodeCommand_encode_of_wf hwf

/-- Settles O2: an accepted word has bit 7 clear, so that its operation code and selector determine it. -/
theorem encodeOfDecodedCommand : Obligations.EncodeOfDecodedCommand := by
  intro c i h
  exact encode_eq_and_wf_of_decodeCommand h

/-- Settles O5: the decoder refuses exactly R70's words, and the evaluation of a refused word reports ILL alone. -/
theorem illegalCommandReportsIll : Obligations.IllegalCommandReportsIll := by
  have hill : illBit = Claims.statusOf true false false false false := by decide
  exact ⟨fun c => (decodeCommand_error_iff c).symm, fun s h => ⟨_, step_of_illegalWord h, hill, rfl, rfl⟩⟩

/-- Settles O18: a cycle that differs keeps the window from being held; a full window without one is held. -/
theorem windowDecidesOutputs : Obligations.WindowDecidesOutputs := by
  refine fun p s hp => ⟨?_, fun hwindow => ?_⟩
  · rintro ⟨k, old, hk, hold, hdiff⟩
    have hunheld : inputsHeld p.latency s = false := by
      rw [Bool.eq_false_iff]
      intro hheld
      obtain ⟨-, hagree⟩ := (inputsHeld_iff _ _).mp hheld
      exact hagree k old hk hold hdiff
    exact evaluateCycle_unheld hp hunheld
  · obtain ⟨o, ho⟩ := respond_drives s
    refine ⟨_, ho, ?_⟩
    rw [evaluateCycle_held hp ((inputsHeld_iff _ _).mpr hwindow), ho, mapNext_next, closeCycle]

/-- Settles O33: the stored form is the complement, and the zero image gives the null record. -/
theorem storedLengthAndNullRecord : Obligations.StoredLengthAndNullRecord :=
  ⟨fun w => ⟨lengthXor_toNat w, lengthXor_lengthXor w⟩, by decide, by decide,
    fun _ hwire htag => ⟨_, exec_decode_zero hwire htag, rfl, rfl⟩⟩

/-- Settles O48: the presented word is the encoding of the line's command; then one clause for each form of line. -/
theorem assembledLineRuns : Obligations.AssembledLineRuns := by
  refine fun s l hwf => ⟨decodeCommand_presentLine s hwf, step_presentLine s hwf, ?_, ?_, ?_, ?_, ?_⟩
  · rintro w0 w1 w2 w3 t rfl
    simp [lineCommand, lineInputs, expandLine]
  · rintro r rfl
    exact ⟨rfl, rfl⟩
  · rintro f v rfl
    exact ⟨rfl, rfl⟩
  · rintro f v rfl
    exact ⟨rfl, rfl⟩
  · rintro r rfl
    exact ⟨rfl, rfl⟩

/-- Settles O49: each pseudo-operation is presented as its expansion, and the step after that is DECODE's or FEXTRACT's. -/
theorem pseudoOperations : Obligations.PseudoOperations := by
  intro s hrom
  refine ⟨⟨(presentLine_expandLine s .nullcap).symm, ?_⟩, fun v =>
    ⟨⟨(presentLine_expandLine s (.getotype v)).symm, ?_⟩, ⟨(presentLine_expandLine s (.getperms v)).symm, ?_⟩⟩⟩
  · have hwire : (s.presentLine .nullcap).inp.wire = 0#256 := by
      change imageOfWords 0 0 0 0 = 0#256
      decide
    rw [step_presentLine s rfl, lineCommand_nullcap, exec_decode_zero hwire rfl, mapNext_next]
    exact ⟨_, rfl, rfl, rfl⟩
  · rw [← presentLine_expandLine]
    exact step_presentLine_fextract hrom (f := 4#4) rfl (placement256_admitted .otype) rfl v
  · rw [← presentLine_expandLine]
    exact step_presentLine_fextract hrom (f := 9#4) rfl (placement256_admitted .permsAll) rfl v

/-- Settles O3: the decoder inverts the encoder, so that each clause is about the word a command is encoded as. -/
theorem legalCommandTable : Obligations.LegalCommandTable := by
  refine ⟨by decide, by decide, fun c => ⟨(mem_legalWords_iff c).symm, decodeCommand_plain_iff c rfl,
    decodeCommand_plain_iff c rfl, decodeCommand_plain_iff c rfl, fun f => decodeCommand_field_iff c rfl rfl,
    fun f => decodeCommand_field_iff c rfl rfl, fun f h => ?_, fun f h => ?_⟩⟩
  · obtain ⟨rfl, -⟩ := encode_eq_and_wf_of_decodeCommand h
    exact Laws.RowMatch.fextract f
  · obtain ⟨rfl, -⟩ := encode_eq_and_wf_of_decodeCommand h
    exact Laws.RowMatch.finsert f

/-- Settles O4: each word is the encoding of its command, read off bit by bit. -/
theorem spelledWordsDecode : Obligations.SpelledWordsDecode := by
  have hdecode (i : Instr) (hwf : i.wf = true) {c : Command} (h : encode i = c) : decodeCommand c = .ok i :=
    h ▸ decodeCommand_encode_of_wf hwf
  exact ⟨hdecode .decode rfl rfl, hdecode .encode rfl rfl, hdecode (.fextract 4#4) rfl rfl, hdecode (.finsert 9#4) rfl rfl,
    hdecode .validate rfl rfl, by decide⟩

end Sys2Proof.Machine

/-!
PROOFS of the family 40_layout: the layout generator and the two field operations (spec/40_layout.md). First the facts about a
generated entry, the two field functions, the entry a selector names and the generator's refusals; then one theorem for each statement.
-/

namespace Sys2Proof.Machine

/-! ### The numbers of a generated entry (R79) -/

theorem placementSize_pos (p : Placement) : 1 ≤ placementSize p := Nat.succ_pos _

/-- An admitted field ends within its word. -/
theorem placementSize_add_start_le {p : Placement} (h : placementAdmitted p = true) : placementSize p + p.start ≤ 64 := by
  obtain ⟨-, hle, hlast⟩ := (placementAdmitted_iff p).mp h
  simp only [placementSize]
  omega

/-- A value of the field's size, put at the field's start, stays within 64 bits. -/
theorem mul_two_pow_start_lt {p : Placement} (h : placementAdmitted p = true) {n : Nat} (hn : n < 2 ^ placementSize p) :
    n * 2 ^ p.start < 2 ^ 64 :=
  calc n * 2 ^ p.start < 2 ^ placementSize p * 2 ^ p.start := Nat.mul_lt_mul_of_pos_right hn (Nat.two_pow_pos _)
    _ = 2 ^ (placementSize p + p.start) := (Nat.pow_add _ _ _).symm
    _ ≤ 2 ^ 64 := Nat.pow_le_pow_right (by decide) (placementSize_add_start_le h)

theorem romEntry_last_toNat {p : Placement} (h : placementAdmitted p = true) : (romEntry p).last.toNat = p.last := by
  obtain ⟨-, -, hlast⟩ := (placementAdmitted_iff p).mp h
  simp only [romEntry, BitVec.toNat_ofNat]
  omega

theorem romEntry_size_toNat {p : Placement} (h : placementAdmitted p = true) :
    (romEntry p).size.toNat = placementSize p := by
  have hsize := placementSize_add_start_le h
  simp only [romEntry, BitVec.toNat_ofNat]
  omega

theorem romEntry_mask64_toNat {p : Placement} (h : placementAdmitted p = true) :
    (romEntry p).mask64.toNat = (2 ^ placementSize p - 1) * 2 ^ p.start := by
  have hlt := mul_two_pow_start_lt h (Nat.sub_one_lt (Nat.two_pow_pos _).ne')
  rw [romEntry_mask64_eq_shiftLeft, BitVec.toNat_shiftLeft, romEntry_maskUnshifted_toNat h, Nat.shiftLeft_eq,
    Nat.mod_eq_of_lt hlt]

/-! ### The two field functions (R80, R81) -/

theorem encodeField_toNat {p : Placement} (h : placementAdmitted p = true) (v : Word) :
    (encodeField (romEntry p) v).toNat = v.toNat % 2 ^ placementSize p * 2 ^ p.start := by
  have hlt := mul_two_pow_start_lt h (Nat.mod_lt v.toNat (Nat.two_pow_pos _))
  rw [encodeField, BitVec.toNat_shiftLeft, BitVec.toNat_and, romEntry_maxValue, romEntry_maskUnshifted_toNat h,
    romEntry_start_toNat h, Nat.and_two_pow_sub_one_eq_mod, Nat.shiftLeft_eq, Nat.mod_eq_of_lt hlt]

/-- A placed value is the shifted word under the field's mask. -/
theorem encodeField_eq_and_mask64 {p : Placement} (h : placementAdmitted p = true) (v : Word) :
    encodeField (romEntry p) v = v <<< p.start &&& (romEntry p).mask64 := by
  rw [encodeField, romEntry_start_toNat h, romEntry_maxValue, romEntry_mask64_eq_shiftLeft, BitVec.shiftLeft_and_distrib]

/-- Extracting a placed value divides out the power of two it was placed by. -/
theorem extractField_encodeField {p : Placement} (h : placementAdmitted p = true) (v : Word) :
    extractField (romEntry p) (encodeField (romEntry p) v) = v &&& (romEntry p).maxValue := by
  apply BitVec.eq_of_toNat_eq
  rw [extractField_toNat h, encodeField_toNat h, Nat.mul_div_cancel _ (Nat.two_pow_pos _), Nat.mod_mod, BitVec.toNat_and,
    romEntry_maxValue, romEntry_maskUnshifted_toNat h, Nat.and_two_pow_sub_one_eq_mod]

/-! ### The entry a selector names (R36) -/

/-- The name of a selector's field, in R36's order; a reserved selector gets the last one. -/
def selectorName : Nat → FieldName
  | 0 => .flags
  | 1 => .perms
  | 2 => .resperms
  | 3 => .uperms
  | 4 => .otype
  | 5 => .reserved
  | 6 => .cursor
  | 7 => .base
  | 8 => .length
  | _ => .permsAll

theorem romSelect_rom256 {f : BitVec 4} (hf : f.toNat < 10) :
    romSelect rom256 f = some (romEntry (placement256 (selectorName f.toNat))) := by
  revert f
  decide

theorem placement256_start {f : BitVec 4} (hf : f.toNat < 10) :
    (placement256 (selectorName f.toNat)).start = Claims.fieldStart f.toNat := by
  revert f
  decide

theorem placementSize_placement256 {f : BitVec 4} (hf : f.toNat < 10) :
    placementSize (placement256 (selectorName f.toNat)) = Claims.fieldSize f.toNat := by
  revert f
  decide

/-- Every entry of the built-in ROM is generated from an admitted placement. -/
theorem romEntry_of_romSelect_rom256 {f : BitVec 4} {e : RomEntry} (h : romSelect rom256 f = some e) :
    ∃ p, placementAdmitted p = true ∧ e = romEntry p := by
  by_cases hf : f.toNat < 10
  · rw [romSelect_rom256 hf, Option.some_inj] at h
    exact ⟨_, placement256_admitted _, h.symm⟩
  · rw [romSelect_of_ge _ (Nat.le_of_not_lt hf)] at h
    contradiction

theorem decodeCommand_encode_error {i : Instr} {f : BitVec 4} (hwf : i.wf = selectorLegal f) (hf : 10 ≤ f.toNat) :
    ∃ e, decodeCommand (encode i) = .error e := by
  have hill : selectorLegal f = false := by simpa [selectorLegal] using hf
  exact ⟨.reservedSelector, by simp [decodeCommand_encode, hwf, hill]⟩

/-! ### What the generator places and what it refuses (R77, R78, R82) -/

theorem frameAdmitted_iff (d : Declared) :
    frameAdmitted d = true ↔ d.start ≤ d.last ∧ d.last ≤ 255 ∧ d.last / 64 = d.start / 64 := by
  simp [frameAdmitted, Nat.shiftRight_eq_div_pow, and_assoc]

/-- Subtracting 64 times its word leaves each end of an admitted field its place within the word. -/
theorem normalizeField_eq {d : Declared} (h : frameAdmitted d = true) :
    normalizeField d = { word := d.start / 64, start := d.start % 64, last := d.last % 64 } := by
  obtain ⟨-, -, hword⟩ := (frameAdmitted_iff d).mp h
  simp only [normalizeField, Nat.shiftRight_eq_div_pow, Placement.mk.injEq, true_and]
  omega

theorem placeInFrame_of_admitted {d : Declared} (h : frameAdmitted d = true) :
    placeInFrame d = some { word := d.start / 64, start := d.start % 64, last := d.last % 64 } := by
  rw [placeInFrame, if_pos h, normalizeField_eq h]

theorem placeInFrame_of_not_admitted {d : Declared} (h : ¬ frameAdmitted d = true) : placeInFrame d = none :=
  if_neg h

/-- A layout is built only from admitted fields, and only where R83's checks pass. -/
theorem admitted_and_checked_of_buildRom {ds : List Declared} {rom : Rom} (h : buildRom ds = some rom) :
    (∀ d ∈ ds, frameAdmitted d = true) ∧ layoutChecks rom = true := by
  unfold buildRom at h
  split at h
  · obtain ⟨hok, hrom⟩ := Option.ite_none_right_eq_some.mp h
    obtain rfl := Option.some_inj.mp hrom
    rwa [Bool.and_eq_true, List.all_eq_true] at hok
  · contradiction

theorem buildRom_eq_none_of_mem {ds : List Declared} {d : Declared} (hd : d ∈ ds) (h : ¬ frameAdmitted d = true) :
    buildRom ds = none :=
  Option.eq_none_iff_forall_ne_some.mpr fun _ hrom => h ((admitted_and_checked_of_buildRom hrom).1 d hd)

/-- The place R82 gives a field declared relative to `g`. -/
def relativePlace (g : Placement) (d : Declared) : Placement :=
  { word := g.word, start := d.start + g.start, last := d.last + g.start }

theorem placeRelative_eq (g : Placement) (d : Declared) :
    placeRelative g d = if placementAdmitted (relativePlace g d) then some (relativePlace g d) else none := rfl

/-- Shifting by an admitted field's start can only push the end out of the word. -/
theorem relativePlace_admitted_iff {g : Placement} (hg : placementAdmitted g = true) {d : Declared} (hd : d.start ≤ d.last) :
    placementAdmitted (relativePlace g d) = true ↔ d.last + g.start ≤ 63 := by
  obtain ⟨hword, -, -⟩ := (placementAdmitted_iff g).mp hg
  simp [placementAdmitted_iff, relativePlace, hword, hd]

theorem placementSize_relativePlace (g : Placement) (d : Declared) :
    placementSize (relativePlace g d) = d.last - d.start + 1 := by
  simp [placementSize, relativePlace, Nat.add_sub_add_right]

/-! ### The build-time checks (R83) -/

theorem entriesDisjoint_iff (a b : RomEntry) :
    entriesDisjoint a b = true ↔ (a.word = b.word → a.mask64 &&& b.mask64 = 0#64) := by
  simp [entriesDisjoint, imp_iff_not_or]

theorem pairwiseDisjoint_iff (es : List RomEntry) :
    pairwiseDisjoint es = true ↔ es.Pairwise fun a b => a.word = b.word → a.mask64 &&& b.mask64 = 0#64 := by
  induction es with
  | nil => simp [pairwiseDisjoint]
  | cons e es ih => simp [pairwiseDisjoint, entriesDisjoint_iff, ih]

theorem coversImage_iff (es : List RomEntry) :
    coversImage es = true ↔ ∀ k : BitVec 2, coveredBits es k = BitVec.allOnes 64 := by
  have hword : ∀ k : BitVec 2, k = 0#2 ∨ k = 1#2 ∨ k = 2#2 ∨ k = 3#2 := by decide
  simp only [coversImage, Bool.and_eq_true, beq_iff_eq]
  constructor
  · rintro ⟨⟨⟨h0, h1⟩, h2⟩, h3⟩ k
    obtain rfl | rfl | rfl | rfl := hword k
    · exact h0
    · exact h1
    · exact h2
    · exact h3
  · intro h
    exact ⟨⟨⟨h _, h _⟩, h _⟩, h _⟩

theorem layoutChecks_iff (rom : Rom) :
    layoutChecks rom = true ↔ totalWidth (romPartition rom) = 256 ∧
      (romPartition rom).Pairwise (fun a b => a.word = b.word → a.mask64 &&& b.mask64 = 0#64) ∧
      ∀ k : BitVec 2, coveredBits (romPartition rom) k = BitVec.allOnes 64 := by
  rw [layoutChecks, Bool.and_eq_true, Bool.and_eq_true, beq_iff_eq, pairwiseDisjoint_iff, coversImage_iff, and_assoc]

/-! ### The statements -/

/-- Settles O21: the size is at most 64 less the start, so that nothing is cut off by the widths of R35. -/
theorem generatorDerivesEntries : Obligations.GeneratorDerivesEntries := by
  intro p h
  have hsize := romEntry_size_toNat h
  have hfits := placementSize_add_start_le h
  exact ⟨hsize ▸ placementSize_pos p, by omega, hsize, romEntry_word_toNat h, romEntry_start_toNat h, romEntry_last_toNat h,
    romEntry_maskUnshifted_toNat h, romEntry_mask64_toNat h, romEntry_maxValue p⟩

/-- Settles O22: the generator admits a field of the frame exactly when both its ends lie in one word. -/
theorem normalizationAndRefusal : Obligations.NormalizationAndRefusal := by
  refine ⟨fun d hle hlast => ⟨fun hword => ?_, fun hcross => ?_⟩, fun w d hw hle hlast => ?_, by decide⟩
  · have hadm := (frameAdmitted_iff d).mpr ⟨hle, hlast, hword⟩
    exact ⟨placeInFrame_of_admitted hadm, by omega, by omega⟩
  · have hnot : ¬ frameAdmitted d = true := by simp [frameAdmitted_iff, hcross]
    exact ⟨placeInFrame_of_not_admitted hnot, fun ds hd => buildRom_eq_none_of_mem hd hnot⟩
  · have hadm : placementAdmitted { word := w, start := d.start, last := d.last } = true :=
      (placementAdmitted_iff _).mpr ⟨hw, hle, hlast⟩
    rw [placeInWord, if_pos hadm]

/-- Settles O23: the shift leaves the size and the order of the ends alone, so that only the last bit decides. -/
theorem relativeFieldPlacement : Obligations.RelativeFieldPlacement := by
  refine fun g d hg hd => ⟨fun hfits => ?_, fun hout => ?_⟩
  · have hadm := (relativePlace_admitted_iff hg hd).mpr hfits
    refine ⟨relativePlace g d, by rw [placeRelative_eq, if_pos hadm], rfl, rfl, rfl, ?_, ?_⟩
    · rw [romEntry_size_toNat hadm, placementSize_relativePlace]
    · rw [romEntry_mask64_toNat hadm, placementSize_relativePlace, relativePlace]
  · have hnot := (relativePlace_admitted_iff hg hd).not.mpr (Nat.not_le_of_lt hout)
    rw [placeRelative_eq, if_neg hnot]

/-- Settles O24: a layout is built only where the checks pass, and the checks say what they check. -/
theorem builtLayoutPassesChecks : Obligations.BuiltLayoutPassesChecks :=
  ⟨by decide, fun _ rom hbuilt => (layoutChecks_iff rom).mp (admitted_and_checked_of_buildRom hbuilt).2⟩

/-- Settles O25: a legal selector names a generated entry, and extracting from it is division and remainder. -/
theorem fextractResult : Obligations.FextractResult := by
  refine ⟨fun f => ⟨encode_toNat _, decodeCommand_encode_error rfl⟩, fun s f hrom hf => ?_⟩
  have hentry : romSelect s.rom f = some _ := hrom ▸ romSelect_rom256 hf
  refine ⟨_, exec_fextract hentry, ?_, rfl, rfl, rfl⟩
  rw [drive_out, ← placement256_start hf, ← placementSize_placement256 hf, ← extractField_toNat (placement256_admitted _),
    BitVec.ofNat_toNat, BitVec.setWidth_eq]

/-- Settles O26: a legal selector names a generated entry, and placing into it is remainder and multiplication. -/
theorem finsertResult : Obligations.FinsertResult := by
  refine ⟨fun f => ⟨encode_toNat _, decodeCommand_encode_error rfl⟩, fun s f hrom hf => ?_⟩
  have hentry : romSelect s.rom f = some _ := hrom ▸ romSelect_rom256 hf
  refine ⟨_, exec_finsert hentry, ?_, rfl, rfl, rfl⟩
  rw [drive_out, ← placement256_start hf, ← placementSize_placement256 hf, ← encodeField_toNat (placement256_admitted _),
    BitVec.ofNat_toNat, BitVec.setWidth_eq]

/-- Settles O27: a placed value is a word under the field's mask, and an extracted one a word under its largest value. -/
theorem fieldFunctionsExact : Obligations.FieldFunctionsExact := by
  intro f e v hselect
  obtain ⟨p, hp, rfl⟩ := romEntry_of_romSelect_rom256 hselect
  refine ⟨?_, ?_, ?_, ?_⟩
  · rw [encodeField_toNat hp, romEntry_maxValue, romEntry_maskUnshifted_toNat hp, Nat.and_two_pow_sub_one_eq_mod,
      romEntry_start_toNat hp, Nat.shiftLeft_eq]
  · rw [encodeField_eq_and_mask64 hp, BitVec.and_assoc, BitVec.and_not_self]
    exact BitVec.and_zero
  · rw [extractField, BitVec.toNat_and, BitVec.toNat_ushiftRight]
  · rw [extractField, BitVec.toNat_and, romEntry_maxValue]
    exact Nat.and_le_right

/-- Settles O28: both laws hold of any entry generated from an admitted placement. -/
theorem fieldFunctionLaws : Obligations.FieldFunctionLaws := by
  intro f e v w hselect
  obtain ⟨p, hp, rfl⟩ := romEntry_of_romSelect_rom256 hselect
  exact ⟨extractField_encodeField hp v, encodeField_extractField hp w⟩

end Sys2Proof.Machine

/-!
PROOFS of the family 41_codec: DECODE and ENCODE (spec/41_codec.md). First the facts about the fields of word 0, the record DECODE
drives, the image ENCODE drives, the two one after the other, and the status bits; then one theorem for each statement.
-/

namespace Sys2Proof.Machine

/-! ### The fields of word 0 as numbers (R58, R62) -/

theorem wordNat_eq (w : Image) (k : Nat) : Claims.wordNat w k = (imageWord w k).toNat := (imageWord_toNat w k).symm

theorem permRange_false : Claims.permRange false = 2 ^ 15 := rfl

theorem permRange_true : Claims.permRange true = 2 ^ 12 := rfl

/-- Masking the permissions keeps 12 of the 15 bits when tagged and all of them when not. -/
theorem and_permMask_toNat (p : BitVec 15) (tag : Bool) : (p &&& permMask tag).toNat = p.toNat % Claims.permRange tag := by
  cases tag with
  | false => exact Nat.and_two_pow_sub_one_eq_mod p.toNat 15
  | true => exact Nat.and_two_pow_sub_one_eq_mod p.toNat 12

theorem wirePerms_toNat (tag : Bool) (w0 : Word) : (wirePerms tag w0).toNat = w0.toNat / 2 % Claims.permRange tag := by
  have hslice : (w0.extractLsb' 1 15).toNat = w0.toNat / 2 % 2 ^ 15 := by
    simp [BitVec.extractLsb'_toNat, Nat.shiftRight_eq_div_pow]
  have hrange : Claims.permRange tag ∣ 2 ^ 15 := by cases tag <;> decide
  rw [wirePerms, and_permMask_toNat, hslice, Nat.mod_mod_of_dvd _ hrange]

theorem wireFlags_toNat (w0 : Word) : (wireFlags w0).toNat = w0.toNat % 2 := by
  simp [wireFlags, BitVec.extractLsb'_toNat]

theorem wireUperms_toNat (w0 : Word) : (wireUperms w0).toNat = w0.toNat / 2 ^ 16 % 2 ^ 16 := by
  simp [wireUperms, BitVec.extractLsb'_toNat, Nat.shiftRight_eq_div_pow]

theorem wireReserved_toNat (w0 : Word) : (wireReserved w0).toNat = w0.toNat / 2 ^ 56 := by
  have hw := w0.isLt
  simp only [wireReserved, BitVec.extractLsb'_toNat, Nat.shiftRight_eq_div_pow]
  omega

theorem wireResperms_eq_zero_iff (w0 : Word) : w0.extractLsb' 13 3 = 0#3 ↔ w0.toNat / 2 ^ 13 % 2 ^ 3 = 0 := by
  rw [← BitVec.toNat_inj, BitVec.extractLsb'_toNat, Nat.shiftRight_eq_div_pow, BitVec.toNat_ofNat, Nat.zero_mod]

/-! ### The record DECODE drives -/

/-- Field by field: all but the top and the object type are plain slices of a word. -/
theorem decodedRecord_eq_decodedNat (w : Image) (t : Bool) : decodedRecord w t = Claims.decodedNat w t := by
  have hofNat {n k : Nat} {v : BitVec n} (h : v.toNat = k) : v = BitVec.ofNat n k := by
    rw [← h, BitVec.ofNat_toNat, BitVec.setWidth_eq]
  simp only [decodedRecord, Claims.decodedNat, wordNat_eq, Record.mk.injEq]
  refine ⟨hofNat rfl, ?_, hofNat rfl, hofNat (wirePerms_toNat _ _), hofNat (wireUperms_toNat _), ?_,
    hofNat (wireFlags_toNat _), hofNat (wireReserved_toNat _), trivial⟩
  · rw [decodedTop, lengthXor_toNat]
  · rw [← wireOtype_toNat, ← otypeXor_toNat]
    exact hofNat rfl

theorem decodedRecord_top_toNat (w : Image) (t : Bool) :
    (decodedRecord w t).top.toNat = (imageWord w 2).toNat + (2 ^ 64 - 1 - (imageWord w 3).toNat) := by
  rw [← lengthXor_toNat]
  exact decodedTop_toNat _ _

theorem decodedRecord_top_le (w : Image) (t : Bool) : (decodedRecord w t).top.toNat ≤ 2 ^ 65 - 2 := by
  have hbase := (imageWord w 2).isLt
  rw [decodedRecord_top_toNat]
  omega

/-- The length that ENCODE finds in a decoded record is the one DECODE read: it never saturates (R112). -/
theorem saturatedLength_decodedRecord (w : Image) (t : Bool) :
    saturatedLength (decodedRecord w t) = lengthXor (imageWord w 3) := by
  have hlen := (lengthXor (imageWord w 3)).isLt
  apply BitVec.eq_of_toNat_eq
  rw [saturatedLength_toNat]
  change min ((decodedTop (imageWord w 2) (lengthXor (imageWord w 3))).toNat - (imageWord w 2).toNat) _ = _
  rw [decodedTop_toNat]
  omega

theorem boundsInverted_decodedRecord (w : Image) (t : Bool) : boundsInverted (decodedRecord w t) = false := by
  rw [boundsInverted_eq_false_iff, decodedRecord_top_toNat]
  exact Nat.le_add_right _ _

/-! ### The image ENCODE drives -/

/-- A value as wide as its field is placed whole. -/
theorem encodeField_setWidth_toNat {p : Placement} (hp : placementAdmitted p = true) {n k : Nat} (hn : placementSize p = n)
    (hk : p.start = k) (v : BitVec n) : (encodeField (romEntry p) (v.setWidth 64)).toNat = v.toNat * 2 ^ k := by
  have hfits := placementSize_add_start_le hp
  rw [encodeField_toNat hp, BitVec.toNat_setWidth_of_le (by omega), hn, hk, Nat.mod_eq_of_lt v.isLt]

/-- A field placed above all that stands below it adds its weight. -/
theorem or_mul_two_pow {a k : Nat} (h : a < 2 ^ k) (b : Nat) : a ||| b * 2 ^ k = a + 2 ^ k * b := by
  rw [Nat.or_comm, Nat.mul_comm, ← Nat.two_pow_add_eq_or_of_lt h, Nat.add_comm]

/-- The fields of word 0 lie one above the other, so that their OR is the sum of R58's places. -/
theorem encodedWord0_toNat (r : Record) : (encodedWord0 rom256 r).toNat = Claims.encodedWord0Nat r := by
  have hflags := r.flags.isLt
  have hperms := (r.perms &&& permMask r.tag).isLt
  have huperms := r.uperms.isLt
  have hotype := (otypeXor r.otype).isLt
  have hplaced : ((r.perms &&& permMask r.tag).setWidth 64 <<< 1).toNat = (r.perms &&& permMask r.tag).toNat * 2 ^ 1 := by
    rw [BitVec.toNat_shiftLeft, BitVec.toNat_setWidth, Nat.shiftLeft_eq]
    omega
  simp only [encodedWord0, rom256, romOf, BitVec.toNat_or]
  rw [hplaced, encodeField_setWidth_toNat (placement256_admitted .flags) (n := 1) (k := 0) rfl rfl r.flags,
    encodeField_setWidth_toNat (placement256_admitted .uperms) (n := 16) (k := 16) rfl rfl r.uperms,
    encodeField_setWidth_toNat (placement256_admitted .otype) (n := 24) (k := 32) rfl rfl (otypeXor r.otype),
    encodeField_setWidth_toNat (placement256_admitted .reserved) (n := 8) (k := 56) rfl rfl r.reserved,
    Nat.pow_zero, Nat.mul_one, or_mul_two_pow hflags, or_mul_two_pow (k := 16) (by omega),
    or_mul_two_pow (k := 32) (by omega), or_mul_two_pow (k := 56) (by omega), Claims.encodedWord0Nat, ← otypeXor_toNat,
    ← and_permMask_toNat, Nat.pow_one]

theorem encodedImage_toNat (r : Record) : (encodedImage rom256 r).toNat = Claims.encodedNat r := by
  rw [encodedImage, imageOfWords_toNat, encodedWord0_toNat, lengthXor_toNat, saturatedLength_toNat, Claims.encodedNat,
    Claims.clampedLength]

/-! ### DECODE of ENCODE's image (R111) -/

/-- Each field of word 0 is read back from its place in the sum. -/
theorem wireFields_encodedWord0 (r : Record) :
    wireFlags (encodedWord0 rom256 r) = r.flags ∧ wirePerms r.tag (encodedWord0 rom256 r) = r.perms &&& permMask r.tag ∧
      wireUperms (encodedWord0 rom256 r) = r.uperms ∧ wireOtype (encodedWord0 rom256 r) = otypeXor r.otype ∧
      wireReserved (encodedWord0 rom256 r) = r.reserved := by
  have hflags := r.flags.isLt
  have hperms : r.perms.toNat % Claims.permRange r.tag < 2 ^ 15 := and_permMask_toNat r.perms r.tag ▸ BitVec.isLt _
  have huperms := r.uperms.isLt
  have hotype := r.otype.isLt
  simp only [← BitVec.toNat_inj, wireFlags_toNat, wirePerms_toNat, wireUperms_toNat, wireOtype_toNat, wireReserved_toNat,
    otypeXor_toNat, and_permMask_toNat, encodedWord0_toNat, Claims.encodedWord0Nat]
  refine ⟨by omega, ?_, by omega, by omega, by omega⟩
  cases r.tag with
  | false =>
    rw [permRange_false]
    omega
  | true =>
    rw [permRange_true]
    omega

theorem decodedRecord_encodedImage (r : Record) :
    decodedRecord (encodedImage rom256 r) r.tag =
      { r with top := decodedTop r.base (saturatedLength r), perms := r.perms &&& permMask r.tag } := by
  obtain ⟨hflags, hperms, huperms, hotype, hreserved⟩ := wireFields_encodedWord0 r
  simp [decodedRecord, encodedImage, hflags, hperms, huperms, hotype, hreserved, lengthXor_lengthXor, otypeXor_otypeXor]

/-- The mask keeps the permissions whole exactly when they fit the width of R29. -/
theorem and_permMask_eq_self_iff (p : BitVec 15) (tag : Bool) :
    p &&& permMask tag = p ↔ (tag = true → p.toNat < 2 ^ 12) := by
  have hp := p.isLt
  rw [← BitVec.toNat_inj, and_permMask_toNat]
  cases tag with
  | false => simp [permRange_false, Nat.mod_eq_of_lt hp]
  | true => simp [permRange_true]

theorem permsDropped_eq_false_iff (r : Record) : permsDropped r = false ↔ (r.tag = true → r.perms.toNat < 2 ^ 12) := by
  have hp := r.perms.isLt
  have hhigh : r.perms.extractLsb' 12 3 = 0#3 ↔ r.perms.toNat < 2 ^ 12 := by
    rw [← BitVec.toNat_inj, BitVec.extractLsb'_toNat, Nat.shiftRight_eq_div_pow, BitVec.toNat_ofNat]
    omega
  cases ht : r.tag with
  | false => simp [permsDropped, ht]
  | true => simp [permsDropped, ht, hhigh]

theorem lengthSaturates_eq_false_iff {r : Record} (hle : r.base.toNat ≤ r.top.toNat) :
    lengthSaturates r = false ↔ r.top.toNat - r.base.toNat ≤ 2 ^ 64 - 1 := by
  rw [lengthSaturates, decide_eq_true hle, Bool.true_and, decide_eq_false_iff_not, Nat.not_lt, lenMax]

/-- The top DECODE computes from the clamped length. -/
theorem decodedTop_saturatedLength (r : Record) :
    decodedTop r.base (saturatedLength r) = BitVec.ofNat 65 (r.base.toNat + Claims.clampedLength r) := by
  rw [decodedTop, saturatedLength_toNat, Claims.clampedLength]

/-- The clamp moves the top exactly when the length does not fit (R117). -/
theorem decodedTop_saturatedLength_eq_top_iff {r : Record} (hle : r.base.toNat ≤ r.top.toNat) :
    decodedTop r.base (saturatedLength r) = r.top ↔ r.top.toNat - r.base.toNat ≤ 2 ^ 64 - 1 := by
  rw [← BitVec.toNat_inj, decodedTop_toNat, saturatedLength_toNat]
  omega

/-- With the bounds in order, a record comes back whole exactly when its permissions and its length fit. -/
theorem decodedRecord_encodedImage_eq_self_iff {r : Record} (hle : r.base.toNat ≤ r.top.toNat) :
    decodedRecord (encodedImage rom256 r) r.tag = r ↔
      r.top.toNat - r.base.toNat ≤ 2 ^ 64 - 1 ∧ (r.tag = true → r.perms.toNat < 2 ^ 12) := by
  rw [decodedRecord_encodedImage, ← decodedTop_saturatedLength_eq_top_iff hle, ← and_permMask_eq_self_iff]
  cases r
  simp

/-! ### ENCODE of DECODE's record (R110) -/

theorem imageWord_and (a b : Image) (k : Nat) : imageWord (a &&& b) k = imageWord a k &&& imageWord b k :=
  BitVec.extractLsb'_and

/-- Where the permission mask drops nothing, word 0 is the sum of the fields read from it. -/
theorem encodedWord0_decodedRecord {w : Image} {t : Bool} (h : t = true → (imageWord w 0).extractLsb' 13 3 = 0#3) :
    encodedWord0 rom256 (decodedRecord w t) = imageWord w 0 := by
  have hw := (imageWord w 0).isLt
  rw [wireResperms_eq_zero_iff] at h
  apply BitVec.eq_of_toNat_eq
  rw [encodedWord0_toNat, decodedRecord_eq_decodedNat]
  simp only [Claims.encodedWord0Nat, Claims.decodedNat, wordNat_eq, BitVec.toNat_ofNat]
  generalize (imageWord w 0).toNat = n at *
  cases t with
  | false =>
    rw [permRange_false]
    omega
  | true =>
    have hclear := h rfl
    rw [permRange_true]
    omega

theorem encodedImage_decodedRecord {w : Image} {t : Bool} (h : t = true → (imageWord w 0).extractLsb' 13 3 = 0#3) :
    encodedImage rom256 (decodedRecord w t) = w := by
  rw [encodedImage, encodedWord0_decodedRecord h, saturatedLength_decodedRecord, lengthXor_lengthXor]
  exact imageOfWords_imageWord w

/-- The image with word 0 bits 15..13, the reserved permission bits, cleared. -/
def clearResperms (w : Image) : Image := w &&& ~~~0xE000#256

theorem resperms_clearResperms (w : Image) : (imageWord (clearResperms w) 0).extractLsb' 13 3 = 0#3 := by
  have hmask : (imageWord (~~~0xE000#256) 0).extractLsb' 13 3 = 0#3 := by decide
  rw [clearResperms, imageWord_and, BitVec.extractLsb'_and, hmask, BitVec.and_zero]

/-- A tagged DECODE does not see the reserved permission bits: the mask of its permissions clears them too. -/
theorem decodedRecord_clearResperms (w : Image) : decodedRecord (clearResperms w) true = decodedRecord w true := by
  have hword {k : Nat} (hmask : imageWord (~~~0xE000#256) k = BitVec.allOnes 64) :
      imageWord (clearResperms w) k = imageWord w k := by
    rw [clearResperms, imageWord_and, hmask, BitVec.and_allOnes]
  have hslice {a n : Nat} (hmask : (imageWord (~~~0xE000#256) 0).extractLsb' a n = BitVec.allOnes n) :
      (imageWord (clearResperms w) 0).extractLsb' a n = (imageWord w 0).extractLsb' a n := by
    rw [clearResperms, imageWord_and, BitVec.extractLsb'_and, hmask, BitVec.and_allOnes]
  have hperms : wirePerms true (imageWord (clearResperms w) 0) = wirePerms true (imageWord w 0) := by
    have hmask : (imageWord (~~~0xE000#256) 0).extractLsb' 1 15 &&& permMask true = permMask true := by decide
    rw [wirePerms, clearResperms, imageWord_and, BitVec.extractLsb'_and, BitVec.and_assoc, hmask, wirePerms]
  have huperms : wireUperms (imageWord (clearResperms w) 0) = wireUperms (imageWord w 0) := hslice (by decide)
  have hotype : wireOtype (imageWord (clearResperms w) 0) = wireOtype (imageWord w 0) := hslice (by decide)
  have hflags : wireFlags (imageWord (clearResperms w) 0) = wireFlags (imageWord w 0) := hslice (by decide)
  have hreserved : wireReserved (imageWord (clearResperms w) 0) = wireReserved (imageWord w 0) := hslice (by decide)
  simp only [decodedRecord, hperms, huperms, hotype, hflags, hreserved, hword (k := 1) (by decide),
    hword (k := 2) (by decide), hword (k := 3) (by decide)]

/-- ENCODE of a tagged record that DECODE drove gives the image back with its reserved permission bits cleared. -/
theorem encodedImage_decodedRecord_tagged (w : Image) : encodedImage rom256 (decodedRecord w true) = clearResperms w := by
  rw [← decodedRecord_clearResperms, encodedImage_decodedRecord fun _ => resperms_clearResperms w]

/-! ### Status -/

theorem reservedViolated_eq (tag : Bool) (v : BitVec 8) : reservedViolated tag v = (tag && decide (v.toNat ≠ 0)) := by
  have hv : (v != 0#8) = decide (v.toNat ≠ 0) := by
    rw [Bool.eq_iff_iff, bne_iff_ne, decide_eq_true_eq, ne_eq, ← BitVec.toNat_inj, BitVec.toNat_ofNat, Nat.zero_mod]
  rw [reservedViolated, hv]

/-- Invariant 2 (R28) is the absence of the contract violation. -/
theorem reservedViolated_eq_false_iff (tag : Bool) (v : BitVec 8) :
    reservedViolated tag v = false ↔ (tag = true → v = 0#8) := by
  cases tag with
  | false => simp [reservedViolated]
  | true => simp [reservedViolated]

/-- DECODE and ENCODE raise RSV and INV, each bit by its own condition. -/
theorem raiseIf_rsv_or_inv (rsv inv : Bool) :
    raiseIf rsv rsvBit ||| raiseIf inv invBit = Claims.statusOf false rsv inv false false := by
  revert rsv inv
  decide

theorem encodeStatus_eq (r : Record) :
    encodeStatus r = Claims.statusOf false (reservedViolated r.tag r.reserved) (boundsInverted r) false false :=
  raiseIf_rsv_or_inv _ _

theorem decodeStatus_eq (tag : Bool) (w0 : Word) :
    decodeStatus tag w0 = Claims.statusOf false (reservedViolated tag (wireReserved w0)) false false false := by
  rw [← raiseIf_rsv_or_inv]
  exact (BitVec.or_zero).symm

theorem validateStatus_eq (r : Record) :
    validateStatus r = Claims.statusOf false (reservedViolated r.tag r.reserved) (boundsInverted r) (permsDropped r)
      (lengthSaturates r) := by
  have hbits : ∀ inv rsv pdrop sat : Bool,
      raiseIf inv invBit ||| raiseIf rsv rsvBit ||| raiseIf pdrop pdropBit ||| raiseIf sat satBit =
        Claims.statusOf false rsv inv pdrop sat := by
    decide
  exact hbits _ _ _ _

theorem statusOf_eq_zero_iff (ill rsv inv pdrop sat : Bool) :
    Claims.statusOf ill rsv inv pdrop sat = 0#5 ↔
      ill = false ∧ rsv = false ∧ inv = false ∧ pdrop = false ∧ sat = false := by
  revert ill rsv inv pdrop sat
  decide

theorem hasBit_statusOf_rsvBit (ill rsv inv pdrop sat : Bool) :
    hasBit (Claims.statusOf ill rsv inv pdrop sat) rsvBit = rsv := by
  revert ill rsv inv pdrop sat
  decide

theorem hasBit_statusOf_invBit (ill rsv inv pdrop sat : Bool) :
    hasBit (Claims.statusOf ill rsv inv pdrop sat) invBit = inv := by
  revert ill rsv inv pdrop sat
  decide

/-- A decoded record violates the contract exactly when its image did, and its bounds are in order. -/
theorem encodeStatus_decodedRecord (w : Image) (t : Bool) :
    encodeStatus (decodedRecord w t) = decodeStatus t (imageWord w 0) := by
  rw [encodeStatus_eq, boundsInverted_decodedRecord, decodeStatus_eq, decodedRecord]

theorem decodeStatus_encodedWord0 (r : Record) :
    decodeStatus r.tag (encodedWord0 rom256 r) = Claims.statusOf false (reservedViolated r.tag r.reserved) false false false := by
  obtain ⟨-, -, -, -, hreserved⟩ := wireFields_encodedWord0 r
  rw [decodeStatus_eq, hreserved]

theorem decodeStatus_eq_wordNat (tag : Bool) (w : Image) :
    decodeStatus tag (imageWord w 0) =
      Claims.statusOf false (tag && decide (Claims.wordNat w 0 / 2 ^ 56 ≠ 0)) false false false := by
  rw [decodeStatus_eq, reservedViolated_eq, wireReserved_toNat, wordNat_eq]

/-! ### Evaluations that complete -/

theorem evaluateCycle_completes (p : Params) (s : State) (hp : p.capVariant = .cap256) : ∃ t, evaluateCycle p s = .next t := by
  cases hheld : inputsHeld p.latency s with
  | true =>
    obtain ⟨o, ho⟩ := respond_drives s
    exact ⟨_, by rw [evaluateCycle_held hp hheld, ho, mapNext_next]⟩
  | false => exact ⟨_, evaluateCycle_unheld hp hheld⟩

/-! ### One step, and a second one on what the host feeds back (R150) -/

theorem step_decode {s : State} (hcmd : s.inp.cmd = encode .decode) :
    ∃ t, step s = .next t ∧ t.out.record = decodedRecord s.inp.wire s.inp.tag ∧
      t.out.status = decodeStatus s.inp.tag (imageWord s.inp.wire 0) ∧ t.rom = s.rom := by
  rw [step_of_decode (hcmd ▸ decodeCommand_encode_of_wf rfl), exec_decode, mapNext_next]
  exact ⟨_, rfl, rfl, rfl, rfl⟩

/-- ENCODE under the built-in ROM, its image said only where it is driven (R108). -/
theorem exec_encode_ports {s : State} (hrom : romBuiltIn s) :
    ∃ t, exec .encode s = .next t ∧
      (boundsInverted s.inp.record = false → t.out.wire = encodedImage rom256 s.inp.record) ∧
      t.out.tag = s.inp.record.tag ∧ t.out.status = encodeStatus s.inp.record ∧ t.inp = s.inp ∧ t.rom = s.rom := by
  have hentries : s.rom = rom256 := hrom
  exact ⟨_, exec_encode s, fun hinv => by simp [hinv, hentries], rfl, rfl, rfl, rfl⟩

theorem step_encode {s : State} (hcmd : s.inp.cmd = encode .encode) (hrom : romBuiltIn s) :
    ∃ t, step s = .next t ∧ (boundsInverted s.inp.record = false → t.out.wire = encodedImage rom256 s.inp.record) ∧
      t.out.tag = s.inp.record.tag ∧ t.out.status = encodeStatus s.inp.record := by
  obtain ⟨t, ht, hwire, htag, hstatus, -, -⟩ := exec_encode_ports hrom
  rw [step_of_decode (hcmd ▸ decodeCommand_encode_of_wf rfl), ht, mapNext_next]
  exact ⟨_, rfl, hwire, htag, hstatus⟩

theorem step_validate {s : State} (hcmd : s.inp.cmd = encode .validate) :
    ∃ t, step s = .next t ∧ t.out.status = validateStatus s.inp.record := by
  rw [step_of_decode (hcmd ▸ decodeCommand_encode_of_wf rfl), exec_validate, mapNext_next]
  exact ⟨_, rfl, rfl⟩

/-- DECODE, then ENCODE of the record it drove: the bounds of that record are in order, so that the image is driven. -/
theorem step_decode_feedRecord {s : State} (hcmd : s.inp.cmd = encode .decode) (hrom : romBuiltIn s) :
    ∃ t u, step s = .next t ∧ step t.feedRecord = .next u ∧
      u.out.wire = encodedImage rom256 (decodedRecord s.inp.wire s.inp.tag) ∧ u.out.tag = s.inp.tag ∧
      t.out.status = decodeStatus s.inp.tag (imageWord s.inp.wire 0) ∧ u.out.status = t.out.status := by
  obtain ⟨t, ht, hrecord, hstatus, htrom⟩ := step_decode hcmd
  obtain ⟨u, hu, hwire, htag, hustatus⟩ := step_encode (s := t.feedRecord) rfl (htrom.trans hrom)
  simp only [feedRecord_inp, hrecord] at hwire htag hustatus
  exact ⟨t, u, ht, hu, hwire (boundsInverted_decodedRecord _ _), htag, hstatus,
    by rw [hustatus, hstatus, encodeStatus_decodedRecord]⟩

/-- ENCODE, then DECODE of the image it drove, which it does only where the bounds are in order (R108). -/
theorem step_encode_feedImage {s : State} (hcmd : s.inp.cmd = encode .encode) (hrom : romBuiltIn s) :
    ∃ t u, step s = .next t ∧ step t.feedImage = .next u ∧ t.out.status = encodeStatus s.inp.record ∧
      (boundsInverted s.inp.record = false →
        u.out.record = decodedRecord (encodedImage rom256 s.inp.record) s.inp.record.tag ∧
        u.out.status = decodeStatus s.inp.record.tag (encodedWord0 rom256 s.inp.record)) := by
  obtain ⟨t, ht, hwire, htag, hstatus⟩ := step_encode hcmd hrom
  obtain ⟨u, hu, hrecord, hustatus, -⟩ := step_decode (s := t.feedImage) rfl
  simp only [feedImage_inp, htag] at hrecord hustatus
  refine ⟨t, u, ht, hu, hstatus, fun hinv => ⟨by rw [hrecord, hwire hinv], ?_⟩⟩
  rw [hustatus, hwire hinv, encodedImage, imageWord_imageOfWords_zero]

/-! ### The statements -/

/-- Settles O42: without the reserved permission bits ENCODE inverts DECODE, and a tagged DECODE reads no such bit. -/
theorem wireRoundTrip : Obligations.WireRoundTrip := by
  intro s hrom hcmd
  obtain ⟨t, u, ht, hu, hwire, htag, hstatus, hsame⟩ := step_decode_feedRecord hcmd hrom
  refine ⟨t, u, ht, hu, htag, ?_, by rw [hstatus, decodeStatus_eq_wordNat], hsame, fun hclear => ?_⟩
  · rw [hwire]
    cases htagged : s.inp.tag with
    | false => exact encodedImage_decodedRecord nofun
    | true => exact encodedImage_decodedRecord_tagged _
  · simp only [wordNat_eq, ← wireReserved_toNat, ← wireResperms_eq_zero_iff] at hclear
    have hzero : t.out.status = 0#5 := by
      rw [hstatus, decodeStatus_eq, statusOf_eq_zero_iff, reservedViolated_eq_false_iff]
      exact ⟨rfl, fun h => BitVec.eq_of_toNat_eq (hclear h).1, rfl, rfl, rfl⟩
    exact ⟨hwire.trans (encodedImage_decodedRecord fun h => (hclear h).2), hzero, hsame.trans hzero⟩

/-- Settles O43: DECODE of ENCODE's image changes at most the top and the permissions, and the latter fit by hypothesis. -/
theorem recordRoundTrip : Obligations.RecordRoundTrip := by
  intro s hrom hcmd hle hfits
  obtain ⟨t, u, ht, hu, hstatus, hback⟩ := step_encode_feedImage hcmd hrom
  have hinv := (boundsInverted_eq_false_iff _).mpr hle
  obtain ⟨hrecord, hustatus⟩ := hback hinv
  have hperms : s.inp.record.tag = true → s.inp.record.perms.toNat < 2 ^ 12 := fun h => (hfits h).2
  have hrsv : reservedViolated s.inp.record.tag s.inp.record.reserved = false :=
    (reservedViolated_eq_false_iff _ _).mpr fun h => (hfits h).1
  refine ⟨t, u, ht, hu, ?_, ?_, ?_, ?_⟩
  · rw [hrecord, decodedRecord_encodedImage, decodedTop_saturatedLength, (and_permMask_eq_self_iff _ _).mpr hperms]
  · rw [hstatus, encodeStatus_eq, statusOf_eq_zero_iff]
    exact ⟨rfl, hrsv, hinv, rfl, rfl⟩
  · rw [hustatus, decodeStatus_encodedWord0, statusOf_eq_zero_iff]
    exact ⟨rfl, hrsv, rfl, rfl, rfl⟩
  · rw [hrecord, decodedRecord_encodedImage_eq_self_iff hle]
    exact and_iff_left hperms

/-- Settles O44: with inverted bounds neither status is 0; with ordered ones PDROP and SAT mark what does not come back. -/
theorem validateAgreesWithCodec : Obligations.ValidateAgreesWithCodec := by
  intro s hrom
  obtain ⟨v, hv, hvstatus⟩ := step_validate (s := s.present { s.inp with cmd := 0x04#8 }) rfl
  obtain ⟨t, u, ht, hu, hstatus, hback⟩ := step_encode_feedImage (s := s.present { s.inp with cmd := 0x01#8 }) rfl hrom
  simp only [present_inp] at hvstatus hstatus hback
  rw [validateStatus_eq] at hvstatus
  rw [encodeStatus_eq] at hstatus
  refine ⟨v, t, u, hv, ht, hu, ?_, ?_, ?_⟩
  · rw [hvstatus, hstatus, hasBit_statusOf_invBit, hasBit_statusOf_invBit]
  · rw [hvstatus, hstatus, hasBit_statusOf_rsvBit, hasBit_statusOf_rsvBit]
  · rw [hvstatus, hstatus, statusOf_eq_zero_iff, statusOf_eq_zero_iff]
    cases hinv : boundsInverted s.inp.record with
    | true => simp
    | false =>
      obtain ⟨hrecord, hustatus⟩ := hback hinv
      have hle := (boundsInverted_eq_false_iff _).mp hinv
      rw [hrecord, hustatus, decodedRecord_encodedImage_eq_self_iff hle, decodeStatus_encodedWord0, statusOf_eq_zero_iff,
        permsDropped_eq_false_iff, lengthSaturates_eq_false_iff hle]
      tauto

/-- Settles O8: every command and every evaluation drives the ports once; a cycle not held drives them too. -/
theorem everyEvaluationCompletes : Obligations.EveryEvaluationCompletes := by
  refine ⟨fun i s => ?_, evaluateCycle_completes, fun s => evaluateCycle_completes Config.params s rfl⟩
  obtain ⟨o, ho⟩ := exec_drives i s
  exact ⟨_, ho⟩

/-- Settles O30: the record field by field, the status by its one condition. -/
theorem decodeResult : Obligations.DecodeResult :=
  ⟨by decide, fun s => ⟨_, exec_decode s, decodedRecord_eq_decodedNat _ _, decodeStatus_eq_wordNat _ _, rfl, rfl⟩⟩

/-- Settles O31: the 65-bit sum does not wrap; an all-ones base and an all-zero stored length reach its bound. -/
theorem decodedTopExact : Obligations.DecodedTopExact := by
  refine ⟨fun s => ⟨_, exec_decode s, ?_, ?_⟩,
    State.reset.present { zeroInputs with wire := imageOfWords 0 0 (BitVec.allOnes 64) 0 }, _, exec_decode _, ?_⟩
  · rw [wordNat_eq, wordNat_eq]
    exact decodedRecord_top_toNat _ _
  · exact decodedRecord_top_le _ _
  · exact (decodedRecord_top_toNat _ _).trans (by decide)

/-- Settles O32: the stored length is at most 64 bits, so that the clamp leaves it; DECODE passes a nonzero reserved field on. -/
theorem decodedRecordBounds : Obligations.DecodedRecordBounds := by
  refine ⟨fun s => ⟨_, exec_decode s, ?_⟩,
    State.reset.present { zeroInputs with wire := imageOfWords (BitVec.allOnes 64) 0 0 0, tag := true }, _, exec_decode _, rfl,
    by decide⟩
  have hbase : (decodedRecord s.inp.wire s.inp.tag).base.toNat = (imageWord s.inp.wire 2).toNat := rfl
  have hlt := (imageWord s.inp.wire 2).isLt
  have htop := decodedRecord_top_toNat s.inp.wire s.inp.tag
  simp only [drive_out, Claims.clampedLength]
  omega

/-- Settles O35: the image as the sum of its fields, driven where the bounds are in order; the status by its two conditions. -/
theorem encodeResult : Obligations.EncodeResult := by
  refine ⟨by decide, fun s hrom => ?_⟩
  obtain ⟨t, ht, hwire, htag, hstatus, hinp, htrom⟩ := exec_encode_ports hrom
  refine ⟨t, ht, fun hle => ?_, htag, ?_, hinp, htrom⟩
  · rw [hwire ((boundsInverted_eq_false_iff _).mpr hle), ← encodedImage_toNat, BitVec.ofNat_toNat, BitVec.setWidth_eq]
  · rw [hstatus, encodeStatus_eq, reservedViolated_eq, boundsInverted]

end Sys2Proof.Machine

/-!
PROOFS of the family 42_validator: VALIDATE (spec/42_validator.md). First the conditions of PDROP and SAT as arithmetic and what the
verdicts read of a status, then one theorem for each statement.
-/

namespace Sys2Proof.Machine

/-! ### The conditions of PDROP and SAT -/

/-- The three reserved permission bits are the quotient by 2^12 (R116). -/
theorem permsDropped_eq (r : Record) : permsDropped r = (r.tag && decide (r.perms.toNat / 2 ^ 12 ≠ 0)) := by
  rw [Bool.eq_iff_iff, ← not_iff_not, Bool.not_eq_true, permsDropped_eq_false_iff, ← Nat.div_eq_zero_iff_lt (by decide)]
  simp

theorem lengthSaturates_eq (r : Record) :
    lengthSaturates r = decide (r.base.toNat ≤ r.top.toNat ∧ 2 ^ 64 - 1 < r.top.toNat - r.base.toNat) :=
  (Bool.decide_and _ _).symm

/-! ### What the verdicts read of a status (R118) -/

theorem hasBit_statusOf_pdropBit (ill rsv inv pdrop sat : Bool) :
    hasBit (Claims.statusOf ill rsv inv pdrop sat) pdropBit = pdrop := by
  revert ill rsv inv pdrop sat
  decide

theorem verdictValid_validateStatus_iff (r : Record) :
    verdictValid (validateStatus r) = true ↔
      boundsInverted r = false ∧ reservedViolated r.tag r.reserved = false ∧ permsDropped r = false := by
  rw [verdictValid, validateStatus_eq, hasBit_statusOf_invBit, hasBit_statusOf_rsvBit, hasBit_statusOf_pdropBit]
  simp [and_assoc]

/-- A valid record is exactly representable unless SAT marks its length. -/
theorem verdictExact_validateStatus_iff (r : Record) :
    verdictExact (validateStatus r) = true ↔ verdictValid (validateStatus r) = true ∧ lengthSaturates r = false := by
  rw [verdictExact, beq_iff_eq, verdictValid_validateStatus_iff, validateStatus_eq, statusOf_eq_zero_iff]
  tauto

/-- Validity in terms of the record: R27's order of the bounds and, under the tag, R28 and the 12 permission bits. -/
theorem verdictValid_validateStatus_iff_record (r : Record) :
    verdictValid (validateStatus r) = true ↔
      r.base.toNat ≤ r.top.toNat ∧ (r.tag = true → r.reserved.toNat = 0 ∧ r.perms.toNat < 2 ^ 12) := by
  have hreserved : r.reserved = 0#8 ↔ r.reserved.toNat = 0 := BitVec.toNat_inj.symm
  rw [verdictValid_validateStatus_iff, boundsInverted_eq_false_iff, reservedViolated_eq_false_iff, permsDropped_eq_false_iff,
    hreserved, ← imp_and]

/-! ### The statements -/

/-- Settles O36: each of the four bits stands on its own condition, here in arithmetic. -/
theorem validateResult : Obligations.ValidateResult := by
  refine ⟨by decide, fun s => ⟨_, exec_validate s, ?_, rfl, rfl⟩⟩
  rw [drive_out, validateStatus_eq, reservedViolated_eq, boundsInverted, permsDropped_eq, lengthSaturates_eq]

/-- Settles O37: a valid record has its bounds in order, and among those SAT is the length beyond 2^64 - 1. -/
theorem validateVerdicts : Obligations.ValidateVerdicts := by
  refine fun s => ⟨_, exec_validate s, verdictValid_validateStatus_iff_record _, ?_⟩
  refine (verdictExact_validateStatus_iff _).trans (and_congr_right fun hvalid => ?_)
  exact lengthSaturates_eq_false_iff ((verdictValid_validateStatus_iff_record _).mp hvalid).1

end Sys2Proof.Machine

/-!
PROOFS of the family 60_exceptions: the status output and the faults (spec/60_exceptions.md). First the status of a step, said once for
each command, the bits such a status holds, and when each fault is named; then one theorem for each statement.
-/

namespace Sys2Proof.Machine

/-! ### The command and the status of a step -/

theorem decodeCommand_ok_iff_eq_encode {c : Command} {i : Instr} (hwf : i.wf = true) :
    decodeCommand c = .ok i ↔ c = encode i := by
  rw [decodeCommand_ok_iff, and_iff_right hwf]

/-- A field operation that decodes has a legal selector (R67). -/
theorem romSelect_of_decodeCommand_field (rom : Rom) {c : Command} {f : BitVec 4}
    (h : decodeCommand c = .ok (.fextract f) ∨ decodeCommand c = .ok (.finsert f)) : ∃ e, romSelect rom f = some e := by
  have hlegal : selectorLegal f = true := by
    rcases h with h | h
    · exact (encode_eq_and_wf_of_decodeCommand h).2
    · exact (encode_eq_and_wf_of_decodeCommand h).2
  exact romSelect_of_lt rom ((selectorLegal_iff f).mp hlegal)

/-- Every step answers a next state on the same inputs, with one of five forms of status, by its command (R122). -/
theorem step_status_cases (s : State) :
    ∃ t, step s = .next t ∧ t.inp = s.inp ∧
      ((decodeCommand s.inp.cmd = .ok .decode ∧
          t.out.status = Claims.statusOf false (s.inp.tag && decide (Claims.wordNat s.inp.wire 0 / 2 ^ 56 ≠ 0)) false false false) ∨
        (decodeCommand s.inp.cmd = .ok .encode ∧
          t.out.status = Claims.statusOf false (reservedViolated s.inp.record.tag s.inp.record.reserved)
            (boundsInverted s.inp.record) false false) ∨
        ((∃ f, decodeCommand s.inp.cmd = .ok (.fextract f) ∨ decodeCommand s.inp.cmd = .ok (.finsert f)) ∧
          t.out.status = Claims.statusOf false false false false false) ∨
        (decodeCommand s.inp.cmd = .ok .validate ∧
          t.out.status = Claims.statusOf false (reservedViolated s.inp.record.tag s.inp.record.reserved)
            (boundsInverted s.inp.record) (permsDropped s.inp.record) (lengthSaturates s.inp.record)) ∨
        ((∃ e, decodeCommand s.inp.cmd = .error e) ∧ t.out.status = Claims.statusOf true false false false false)) := by
  cases h : decodeCommand s.inp.cmd with
  | error e =>
    exact ⟨_, step_of_illegalWord ((decodeCommand_error_iff _).mp ⟨e, h⟩), rfl, .inr (.inr (.inr (.inr ⟨⟨e, rfl⟩, rfl⟩)))⟩
  | ok i =>
    cases i with
    | decode => exact ⟨_, step_of_decode h, rfl, .inl ⟨rfl, decodeStatus_eq_wordNat _ _⟩⟩
    | encode => exact ⟨_, step_of_decode h, rfl, .inr (.inl ⟨rfl, encodeStatus_eq _⟩)⟩
    | fextract f =>
      obtain ⟨e, he⟩ := romSelect_of_decodeCommand_field s.rom (.inl h)
      rw [step_of_decode h, exec_fextract he, mapNext_next]
      exact ⟨_, rfl, rfl, .inr (.inr (.inl ⟨⟨f, .inl rfl⟩, rfl⟩))⟩
    | finsert f =>
      obtain ⟨e, he⟩ := romSelect_of_decodeCommand_field s.rom (.inr h)
      rw [step_of_decode h, exec_finsert he, mapNext_next]
      exact ⟨_, rfl, rfl, .inr (.inr (.inl ⟨⟨f, .inr rfl⟩, rfl⟩))⟩
    | validate => exact ⟨_, step_of_decode h, rfl, .inr (.inr (.inr (.inl ⟨rfl, validateStatus_eq _⟩)))⟩

/-! ### The bits of a status -/

theorem hasBit_statusOf_illBit (ill rsv inv pdrop sat : Bool) :
    hasBit (Claims.statusOf ill rsv inv pdrop sat) illBit = ill := by
  revert ill rsv inv pdrop sat
  decide

theorem statusOf_rsv_eq_zero_or (rsv : Bool) :
    Claims.statusOf false rsv false false false = 0#5 ∨ Claims.statusOf false rsv false false false = 0x02#5 := by
  revert rsv
  decide

/-- RSV and INV lie outside the mask of ILL, PDROP and SAT. -/
theorem statusOf_rsv_inv_and_mask (rsv inv : Bool) : Claims.statusOf false rsv inv false false &&& 0x19#5 = 0#5 := by
  revert rsv inv
  decide

theorem statusOf_and_ill (rsv inv pdrop sat : Bool) : Claims.statusOf false rsv inv pdrop sat &&& 0x01#5 = 0#5 := by
  revert rsv inv pdrop sat
  decide

/-- INV and SAT fill the mask 0x14 only together. -/
theorem statusOf_and_inv_sat_ne : ∀ ill rsv inv pdrop sat : Bool, (inv && sat) = false →
    Claims.statusOf ill rsv inv pdrop sat &&& 0x14#5 ≠ 0x14#5 := by
  decide

/-! ### When a fault is named (R133) -/

theorem codecCommand_iff (c : Command) :
    codecCommand c = true ↔ decodeCommand c = .ok .decode ∨ decodeCommand c = .ok .encode := by
  unfold codecCommand
  cases decodeCommand c with
  | error e => simp
  | ok i => cases i <;> simp

theorem illegalCommand_mem_statusFaults_iff (t : State) :
    Fault.illegalCommand ∈ statusFaults t ↔ hasBit t.out.status illBit = true := by
  simp [statusFaults]

theorem reservedBits_mem_statusFaults_iff (t : State) :
    Fault.reservedBits ∈ statusFaults t ↔ codecCommand t.inp.cmd = true ∧ hasBit t.out.status rsvBit = true := by
  simp [statusFaults]

theorem invertedBounds_mem_statusFaults_iff (t : State) :
    Fault.invertedBounds ∈ statusFaults t ↔ codecCommand t.inp.cmd = true ∧ hasBit t.out.status invBit = true := by
  simp [statusFaults]

/-- Outside DECODE and ENCODE only ILL is a fault (R122). -/
theorem statusFaults_eq_nil {t : State} (hcodec : codecCommand t.inp.cmd = false) (hill : hasBit t.out.status illBit = false) :
    statusFaults t = [] := by
  simp [statusFaults, hcodec, hill]

theorem reservedViolated_eq_true_iff (tag : Bool) (v : BitVec 8) :
    reservedViolated tag v = true ↔ tag = true ∧ v ≠ 0#8 := by
  simp [reservedViolated]

/-! ### The statements -/

/-- Settles O38: the clause of the command at hand is read off its form of status; the other clauses are about other commands. -/
theorem statusBitsByCommand : Obligations.StatusBitsByCommand := by
  intro s
  obtain ⟨t, ht, hinp, hcase⟩ := step_status_cases s
  refine ⟨t, ht, ?_⟩
  obtain ⟨h, hstatus⟩ | ⟨h, hstatus⟩ | ⟨⟨f, h | h⟩, hstatus⟩ | ⟨h, hstatus⟩ | ⟨⟨e, h⟩, hstatus⟩ := hcase
  · simpa [h, hstatus] using statusOf_rsv_eq_zero_or _
  · simpa [h, hstatus] using statusOf_rsv_inv_and_mask _ _
  · simp [h, hstatus, statusOf_eq_zero_iff]
  · simp [h, hstatus, statusOf_eq_zero_iff]
  · have hfaults : statusFaults t = [] := by
      refine statusFaults_eq_nil ?_ (by rw [hstatus, hasBit_statusOf_illBit])
      simp [← Bool.not_eq_true, codecCommand_iff, hinp, h]
    simpa [h, hstatus, hfaults] using And.intro (statusOf_and_ill _ _ _ _)
      (statusOf_and_inv_sat_ne false _ _ _ _ (boundsInverted_and_lengthSaturates s.inp.record))
  · simp [h, hstatus, Claims.statusOf]

/-- Settles O39: each fault is a bit of the status, and which bits stand there is decided by the command. -/
theorem faultsOfAnEvaluation : Obligations.FaultsOfAnEvaluation := by
  intro s
  have hdecode : s.inp.cmd = 0x00#8 ↔ decodeCommand s.inp.cmd = .ok .decode :=
    (decodeCommand_ok_iff_eq_encode (i := .decode) rfl).symm
  have hencode : s.inp.cmd = 0x01#8 ↔ decodeCommand s.inp.cmd = .ok .encode :=
    (decodeCommand_ok_iff_eq_encode (i := .encode) rfl).symm
  obtain ⟨t, ht, hinp, hcase⟩ := step_status_cases s
  refine ⟨t, ht, ?_⟩
  rw [illegalCommand_mem_statusFaults_iff, reservedBits_mem_statusFaults_iff, invertedBounds_mem_statusFaults_iff,
    codecCommand_iff, hinp, ← decodeCommand_error_iff, hdecode, hencode]
  obtain ⟨h, hstatus⟩ | ⟨h, hstatus⟩ | ⟨⟨f, h | h⟩, hstatus⟩ | ⟨h, hstatus⟩ | ⟨⟨e, h⟩, hstatus⟩ := hcase
  all_goals
    rw [hstatus, hasBit_statusOf_illBit, hasBit_statusOf_rsvBit, hasBit_statusOf_invBit, h]
  -- DECODE and ENCODE, whose bits are faults under their own conditions
  · simp
  · simp [reservedViolated_eq_true_iff, boundsInverted_iff]
  -- FEXTRACT, FINSERT and VALIDATE, which can have no fault
  · simp
  · simp
  · simp
  -- an illegal command, whose only bit is ILL
  · simp

end Sys2Proof.Machine

/-!
PROOFS of the family 70_reset_and_hazards: presenting inputs and the LATENCY window (spec/70_reset_and_hazards.md R141 to R149).
First what a cycle and a run of held cycles keep and remember, then one theorem for each statement.
-/

namespace Sys2Proof.Machine

/-! ### Cycles in which the host holds the inputs -/

@[simp] theorem holdCycles_zero (p : Params) (s : State) : holdCycles p 0 s = .next s := rfl

theorem holdCycles_succ {p : Params} {s t : State} (h : evaluateCycle p s = .next t) (k : Nat) :
    holdCycles p (k + 1) s = holdCycles p k t := by
  simp [holdCycles, h]

/-- A cycle of the 256-bit variant, held or not, drives the ports once and is closed. -/
theorem evaluateCycle_drives {p : Params} (hp : p.capVariant = .cap256) (s : State) :
    ∃ o, evaluateCycle p s = .next (closeCycle p.latency (drive s o)) := by
  obtain ⟨t, ht⟩ := evaluateCycle_completes p s hp
  obtain ⟨-, o, rfl⟩ := evaluateCycle_next ht
  exact ⟨o, ht⟩

/-- Holding the inputs once and then `k` times more fills a window of `m` cycles as holding them `k + 1` times does. -/
theorem take_replicate_append_take_cons {α : Type} (m k : Nat) (a : α) (l : List α) :
    (List.replicate k a ++ (a :: l).take m).take m = (List.replicate (k + 1) a ++ l).take m := by
  rw [List.replicate_succ', List.append_assoc, List.singleton_append, List.take_append, List.take_append, List.take_take,
    Nat.min_eq_left (Nat.sub_le _ _)]

/-- Cycles with the inputs held complete, keep the inputs and the ROM, take one draw each, and the LATENCY window sees the held
inputs before what was remembered (R148). -/
theorem holdCycles_next {p : Params} (hp : p.capVariant = .cap256) (n : Nat) (s : State) :
    ∃ u, holdCycles p n s = .next u ∧ u.inp = s.inp ∧ u.rom = s.rom ∧ u.draws = s.draws + n ∧
      u.past.take p.latency = (List.replicate n s.inp ++ s.past).take p.latency := by
  induction n generalizing s with
  | zero => exact ⟨s, holdCycles_zero p s, rfl, rfl, rfl, rfl⟩
  | succ k ih =>
    obtain ⟨o, hcycle⟩ := evaluateCycle_drives hp s
    obtain ⟨u, hu, hinp, hrom, hdraws, hpast⟩ := ih (closeCycle p.latency (drive s o))
    refine ⟨u, (holdCycles_succ hcycle k).trans hu, hinp, hrom, ?_, ?_⟩
    · rw [hdraws, closeCycle_draws, drive_draws]
      omega
    · exact hpast.trans (take_replicate_append_take_cons _ _ _ _)

/-- A window filled with the present inputs is held. -/
theorem inputsHeld_of_take_eq_replicate {latency : Nat} {s : State}
    (h : s.past.take latency = List.replicate latency s.inp) : inputsHeld latency s = true := by
  have hlength : latency ≤ s.past.length := by simpa using congrArg List.length h
  simp [inputsHeld, h, hlength]

/-- A held cycle is the evaluation of the command; beyond that it only remembers its inputs. -/
theorem evaluateCycle_eq_respond {p : Params} (hp : p.capVariant = .cap256) {s : State} (h : inputsHeld p.latency s = true) :
    ∃ t, respond s = .next t ∧ evaluateCycle p s = .next { t with past := (s.inp :: s.past).take p.latency } := by
  obtain ⟨o, ho⟩ := respond_drives s
  exact ⟨drive s o, ho, by rw [evaluateCycle_held hp h, ho, mapNext_next, closeCycle, drive_inp, drive_past]⟩

/-! ### The statements -/

/-- Settles O17: holding the inputs for LATENCY cycles or more fills the window with them, so that the next cycle is held. -/
theorem heldInputsEvaluateAfterLatency : Obligations.HeldInputsEvaluateAfterLatency := by
  intro p s n hp hn
  obtain ⟨u, hu, hinp, hrom, hdraws, hpast⟩ := holdCycles_next hp n s
  have hwindow : u.past.take p.latency = List.replicate p.latency u.inp := by
    rw [hpast, hinp, List.take_append_of_le_length (by simpa using hn), List.take_replicate, Nat.min_eq_left hn]
  obtain ⟨t, ht, hcycle⟩ := evaluateCycle_eq_respond hp (inputsHeld_of_take_eq_replicate hwindow)
  exact ⟨u, t, hu, hinp, hrom, hdraws, ht, hcycle⟩

/-- Settles O16: each of the host's operations is one `present`, which drives every output with the draw for unstable inputs. -/
theorem presentingInvalidatesOutputs : Obligations.PresentingInvalidatesOutputs := by
  intro s
  refine ⟨fun i => ⟨present_inp s i, present_rom s i, present_out s i⟩, withFetchWord_out s, fun l => present_out s _,
    present_out s _, present_out s _, fun p bytes tag t hload => ?_⟩
  obtain ⟨w, -, rfl⟩ := Option.map_eq_some_iff.mp hload
  exact present_out s _

end Sys2Proof.Machine
